-- ==== Sys2Proof/Word.lean ====
section
/-! DEFINITION. The widths of the machine (rules R5, R7, R8): every value is unsigned, bit 0 is the least significant. -/

namespace Sys2Proof

/-- An 8-bit value: a register, a byte of memory, an immediate `NN`. -/
abbrev Byte := BitVec 8

/-- A 16-bit value: an instruction word, `PC`, `I`, a stack entry. -/
abbrev Word := BitVec 16

/-- A 4-bit value: a register index `X` or `Y`, a row count `N`, a key number. -/
abbrev Nibble := BitVec 4

/-- A 12-bit address immediate `NNN` (rule R92). -/
abbrev Addr12 := BitVec 12

end Sys2Proof
end

