-- ==== Sys2Proof/Syntax.lean ====
section
/-! DEFINITION. The 34 instructions, one constructor per row of the opcode map (rule R94), in its order. The mnemonics
are the spec's own spelling (rule R97, log 25). Each operand has the width of its field (rule R92). -/

namespace Sys2Proof

inductive Instr where
  /-- `00E0` CLS -/
  | cls
  /-- `00EE` RET -/
  | ret
  /-- `1NNN` JP nnn -/
  | jp (nnn : Addr12)
  /-- `2NNN` CALL nnn -/
  | call (nnn : Addr12)
  /-- `3XNN` SE Vx, nn -/
  | seImm (x : Nibble) (nn : Byte)
  /-- `4XNN` SNE Vx, nn -/
  | sneImm (x : Nibble) (nn : Byte)
  /-- `5XY0` SE Vx, Vy -/
  | seReg (x y : Nibble)
  /-- `6XNN` LD Vx, nn -/
  | ldImm (x : Nibble) (nn : Byte)
  /-- `7XNN` ADD Vx, nn -/
  | addImm (x : Nibble) (nn : Byte)
  /-- `8XY0` LD Vx, Vy -/
  | ldReg (x y : Nibble)
  /-- `8XY1` OR Vx, Vy -/
  | or (x y : Nibble)
  /-- `8XY2` AND Vx, Vy -/
  | and (x y : Nibble)
  /-- `8XY3` XOR Vx, Vy -/
  | xor (x y : Nibble)
  /-- `8XY4` ADD Vx, Vy -/
  | addReg (x y : Nibble)
  /-- `8XY5` SUB Vx, Vy -/
  | sub (x y : Nibble)
  /-- `8XY6` SHR Vx, Vy -/
  | shr (x y : Nibble)
  /-- `8XY7` SUBN Vx, Vy -/
  | subn (x y : Nibble)
  /-- `8XYE` SHL Vx, Vy -/
  | shl (x y : Nibble)
  /-- `9XY0` SNE Vx, Vy -/
  | sneReg (x y : Nibble)
  /-- `ANNN` LD I, nnn -/
  | ldI (nnn : Addr12)
  /-- `BNNN` JP V0, nnn -/
  | jpV0 (nnn : Addr12)
  /-- `CXNN` RND Vx, nn -/
  | rnd (x : Nibble) (nn : Byte)
  /-- `DXYN` DRW Vx, Vy, n -/
  | drw (x y n : Nibble)
  /-- `EX9E` SKP Vx -/
  | skp (x : Nibble)
  /-- `EXA1` SKNP Vx -/
  | sknp (x : Nibble)
  /-- `FX07` LD Vx, DT -/
  | ldVxDT (x : Nibble)
  /-- `FX0A` LD Vx, K -/
  | ldVxK (x : Nibble)
  /-- `FX15` LD DT, Vx -/
  | ldDTVx (x : Nibble)
  /-- `FX18` LD ST, Vx -/
  | ldSTVx (x : Nibble)
  /-- `FX1E` ADD I, Vx -/
  | addI (x : Nibble)
  /-- `FX29` LD F, Vx -/
  | ldF (x : Nibble)
  /-- `FX33` LD B, Vx -/
  | ldB (x : Nibble)
  /-- `FX55` LD [I], Vx -/
  | storeRegs (x : Nibble)
  /-- `FX65` LD Vx, [I] -/
  | loadRegs (x : Nibble)
  deriving DecidableEq, Repr

end Sys2Proof
end

