-- ==== Sys2Proof/WellFormed.lean ====
section
/-! DEFINITION. The operand ranges of rule R92, as a check on plain numbers. The constructors of `Instr` carry each
operand at the width of its field, so every instruction passes (Laws/Decode.lean, log 26); the check itself is about
numbers that anything outside the types (an assembler, a table) would offer. -/

namespace Sys2Proof

/-- An operand by its kind, as a plain number. -/
inductive Field where
  | x (v : Nat)
  | y (v : Nat)
  | nn (v : Nat)
  | nnn (v : Nat)
  | n (v : Nat)
  deriving DecidableEq, Repr

/-- The range column of rule R92. -/
def Field.wellFormed : Field → Bool
  | .x v => v ≤ 15
  | .y v => v ≤ 15
  | .nn v => v ≤ 255
  | .nnn v => v ≤ 0xFFF
  | .n v => v ≤ 15

/-- The operands of an instruction, in the order of its pattern (rule R91). -/
def Instr.fields : Instr → List Field
  | .cls | .ret => []
  | .jp a | .call a | .ldI a | .jpV0 a => [.nnn a.toNat]
  | .seImm x k | .sneImm x k | .ldImm x k | .addImm x k | .rnd x k => [.x x.toNat, .nn k.toNat]
  | .seReg x y | .sneReg x y | .ldReg x y | .or x y | .and x y | .xor x y | .addReg x y | .sub x y
  | .shr x y | .subn x y | .shl x y => [.x x.toNat, .y y.toNat]
  | .drw x y n => [.x x.toNat, .y y.toNat, .n n.toNat]
  | .skp x | .sknp x | .ldVxDT x | .ldVxK x | .ldDTVx x | .ldSTVx x | .addI x | .ldF x | .ldB x
  | .storeRegs x | .loadRegs x => [.x x.toNat]

def Instr.wellFormed (i : Instr) : Bool :=
  i.fields.all Field.wellFormed

end Sys2Proof
end

