-- ==== Sys2Proof/Decode.lean ====
section
/-! DEFINITION. The fields of a word (rule R7), the decoder (rules R90 to R96), total on every word and on every list of
bytes, and after it the opcode map as data (rule R94) and the encoder (rule R91). -/

namespace Sys2Proof

/-- `OP = w[15:12]` -/
def opOf (w : Word) : Nibble := w.extractLsb' 12 4

/-- `X = w[11:8]` -/
def xOf (w : Word) : Nibble := w.extractLsb' 8 4

/-- `Y = w[7:4]` -/
def yOf (w : Word) : Nibble := w.extractLsb' 4 4

/-- `N = w[3:0]` -/
def nOf (w : Word) : Nibble := w.extractLsb' 0 4

/-- `NN = w[7:0]` -/
def nnOf (w : Word) : Byte := w.extractLsb' 0 8

/-- `NNN = w[11:0]` -/
def nnnOf (w : Word) : Addr12 := w.extractLsb' 0 12

/-- What the decoder says of a word (rule R93): one of the 34 instructions, or `Unknown`. -/
inductive Verdict where
  | instr (i : Instr)
  | unknown
  deriving DecidableEq, Repr

/-- Family `OP = 8`, by its function code `N` (rule R94 rows 10 to 18; the others are `Unknown`, rule R95). -/
def decodeAlu (x y n : Nibble) : Verdict :=
  match n.toNat with
  | 0x0 => .instr (.ldReg x y)
  | 0x1 => .instr (.or x y)
  | 0x2 => .instr (.and x y)
  | 0x3 => .instr (.xor x y)
  | 0x4 => .instr (.addReg x y)
  | 0x5 => .instr (.sub x y)
  | 0x6 => .instr (.shr x y)
  | 0x7 => .instr (.subn x y)
  | 0xE => .instr (.shl x y)
  | _ => .unknown

/-- Family `OP = E`, by its function code `NN` (rule R94 rows 24, 25). -/
def decodeKey (x : Nibble) (nn : Byte) : Verdict :=
  match nn.toNat with
  | 0x9E => .instr (.skp x)
  | 0xA1 => .instr (.sknp x)
  | _ => .unknown

/-- Family `OP = F`, by its function code `NN` (rule R94 rows 26 to 34). -/
def decodeMisc (x : Nibble) (nn : Byte) : Verdict :=
  match nn.toNat with
  | 0x07 => .instr (.ldVxDT x)
  | 0x0A => .instr (.ldVxK x)
  | 0x15 => .instr (.ldDTVx x)
  | 0x18 => .instr (.ldSTVx x)
  | 0x1E => .instr (.addI x)
  | 0x29 => .instr (.ldF x)
  | 0x33 => .instr (.ldB x)
  | 0x55 => .instr (.storeRegs x)
  | 0x65 => .instr (.loadRegs x)
  | _ => .unknown

/-- The decoder (rules R93, R94, R95): every fixed digit of a pattern is compared (D20, log 18). `OP` has 16 values, so
the last arm is `OP = F`. -/
def decodeWord (w : Word) : Verdict :=
  match (opOf w).toNat with
  | 0x0 => if w = 0x00E0#16 then .instr .cls else if w = 0x00EE#16 then .instr .ret else .unknown
  | 0x1 => .instr (.jp (nnnOf w))
  | 0x2 => .instr (.call (nnnOf w))
  | 0x3 => .instr (.seImm (xOf w) (nnOf w))
  | 0x4 => .instr (.sneImm (xOf w) (nnOf w))
  | 0x5 => if nOf w = 0x0#4 then .instr (.seReg (xOf w) (yOf w)) else .unknown
  | 0x6 => .instr (.ldImm (xOf w) (nnOf w))
  | 0x7 => .instr (.addImm (xOf w) (nnOf w))
  | 0x8 => decodeAlu (xOf w) (yOf w) (nOf w)
  | 0x9 => if nOf w = 0x0#4 then .instr (.sneReg (xOf w) (yOf w)) else .unknown
  | 0xA => .instr (.ldI (nnnOf w))
  | 0xB => .instr (.jpV0 (nnnOf w))
  | 0xC => .instr (.rnd (xOf w) (nnOf w))
  | 0xD => .instr (.drw (xOf w) (yOf w) (nOf w))
  | 0xE => decodeKey (xOf w) (nnOf w)
  | _ => decodeMisc (xOf w) (nnOf w)

/-- What the decoder says of a list of bytes. -/
inductive Decoded where
  | instr (i : Instr) (rest : List Byte)
  | unknown (w : Word)
  | truncated
  deriving DecidableEq, Repr

/-- An instruction is two bytes, the most significant first (rules R65, R90). -/
def decodeBytes : List Byte → Decoded
  | hi :: lo :: rest =>
    match decodeWord (hi ++ lo) with
    | .instr i => .instr i rest
    | .unknown => .unknown (hi ++ lo)
  | [_] => .truncated
  | [] => .truncated

/-- A row of the opcode map (rule R94). -/
structure OpcodeRow where
  mask : Word
  pattern : Word
  deriving DecidableEq, Repr

def OpcodeRow.covers (r : OpcodeRow) (w : Word) : Bool :=
  w &&& r.mask == r.pattern

/-- The row of an instruction (rule R94). -/
def Instr.row : Instr → OpcodeRow
  | .cls => ⟨0xFFFF#16, 0x00E0#16⟩
  | .ret => ⟨0xFFFF#16, 0x00EE#16⟩
  | .jp _ => ⟨0xF000#16, 0x1000#16⟩
  | .call _ => ⟨0xF000#16, 0x2000#16⟩
  | .seImm _ _ => ⟨0xF000#16, 0x3000#16⟩
  | .sneImm _ _ => ⟨0xF000#16, 0x4000#16⟩
  | .seReg _ _ => ⟨0xF00F#16, 0x5000#16⟩
  | .ldImm _ _ => ⟨0xF000#16, 0x6000#16⟩
  | .addImm _ _ => ⟨0xF000#16, 0x7000#16⟩
  | .ldReg _ _ => ⟨0xF00F#16, 0x8000#16⟩
  | .or _ _ => ⟨0xF00F#16, 0x8001#16⟩
  | .and _ _ => ⟨0xF00F#16, 0x8002#16⟩
  | .xor _ _ => ⟨0xF00F#16, 0x8003#16⟩
  | .addReg _ _ => ⟨0xF00F#16, 0x8004#16⟩
  | .sub _ _ => ⟨0xF00F#16, 0x8005#16⟩
  | .shr _ _ => ⟨0xF00F#16, 0x8006#16⟩
  | .subn _ _ => ⟨0xF00F#16, 0x8007#16⟩
  | .shl _ _ => ⟨0xF00F#16, 0x800E#16⟩
  | .sneReg _ _ => ⟨0xF00F#16, 0x9000#16⟩
  | .ldI _ => ⟨0xF000#16, 0xA000#16⟩
  | .jpV0 _ => ⟨0xF000#16, 0xB000#16⟩
  | .rnd _ _ => ⟨0xF000#16, 0xC000#16⟩
  | .drw _ _ _ => ⟨0xF000#16, 0xD000#16⟩
  | .skp _ => ⟨0xF0FF#16, 0xE09E#16⟩
  | .sknp _ => ⟨0xF0FF#16, 0xE0A1#16⟩
  | .ldVxDT _ => ⟨0xF0FF#16, 0xF007#16⟩
  | .ldVxK _ => ⟨0xF0FF#16, 0xF00A#16⟩
  | .ldDTVx _ => ⟨0xF0FF#16, 0xF015#16⟩
  | .ldSTVx _ => ⟨0xF0FF#16, 0xF018#16⟩
  | .addI _ => ⟨0xF0FF#16, 0xF01E#16⟩
  | .ldF _ => ⟨0xF0FF#16, 0xF029#16⟩
  | .ldB _ => ⟨0xF0FF#16, 0xF033#16⟩
  | .storeRegs _ => ⟨0xF0FF#16, 0xF055#16⟩
  | .loadRegs _ => ⟨0xF0FF#16, 0xF065#16⟩

/-- The opcode map of rule R94 as a list of rows, in its order. -/
def opcodeMap : List OpcodeRow :=
  [⟨0xFFFF#16, 0x00E0#16⟩, ⟨0xFFFF#16, 0x00EE#16⟩, ⟨0xF000#16, 0x1000#16⟩, ⟨0xF000#16, 0x2000#16⟩,
   ⟨0xF000#16, 0x3000#16⟩, ⟨0xF000#16, 0x4000#16⟩, ⟨0xF00F#16, 0x5000#16⟩, ⟨0xF000#16, 0x6000#16⟩,
   ⟨0xF000#16, 0x7000#16⟩] ++
  [⟨0xF00F#16, 0x8000#16⟩, ⟨0xF00F#16, 0x8001#16⟩, ⟨0xF00F#16, 0x8002#16⟩, ⟨0xF00F#16, 0x8003#16⟩,
   ⟨0xF00F#16, 0x8004#16⟩, ⟨0xF00F#16, 0x8005#16⟩, ⟨0xF00F#16, 0x8006#16⟩, ⟨0xF00F#16, 0x8007#16⟩,
   ⟨0xF00F#16, 0x800E#16⟩, ⟨0xF00F#16, 0x9000#16⟩] ++
  [⟨0xF000#16, 0xA000#16⟩, ⟨0xF000#16, 0xB000#16⟩, ⟨0xF000#16, 0xC000#16⟩, ⟨0xF000#16, 0xD000#16⟩,
   ⟨0xF0FF#16, 0xE09E#16⟩, ⟨0xF0FF#16, 0xE0A1#16⟩] ++
  [⟨0xF0FF#16, 0xF007#16⟩, ⟨0xF0FF#16, 0xF00A#16⟩, ⟨0xF0FF#16, 0xF015#16⟩, ⟨0xF0FF#16, 0xF018#16⟩,
   ⟨0xF0FF#16, 0xF01E#16⟩, ⟨0xF0FF#16, 0xF029#16⟩, ⟨0xF0FF#16, 0xF033#16⟩, ⟨0xF0FF#16, 0xF055#16⟩,
   ⟨0xF0FF#16, 0xF065#16⟩]

/-- Format `A` (rule R91): `OP`, `NNN`. -/
def formatA (op : Nibble) (nnn : Addr12) : Word := op ++ nnn

/-- Format `I` (rule R91): `OP`, `X`, `NN`; format `S` is the same shape with a function code for `NN`. -/
def formatI (op x : Nibble) (nn : Byte) : Word := op ++ x ++ nn

/-- Format `D` (rule R91): `OP`, `X`, `Y`, `N`; format `R` is the same shape with a function code for `N`. -/
def formatD (op x y n : Nibble) : Word := op ++ x ++ y ++ n

/-- The encoder (rules R91, R92, R94): the one word of an instruction. -/
def encode : Instr → Word
  | .cls => 0x00E0#16
  | .ret => 0x00EE#16
  | .jp nnn => formatA 0x1#4 nnn
  | .call nnn => formatA 0x2#4 nnn
  | .seImm x nn => formatI 0x3#4 x nn
  | .sneImm x nn => formatI 0x4#4 x nn
  | .seReg x y => formatD 0x5#4 x y 0x0#4
  | .ldImm x nn => formatI 0x6#4 x nn
  | .addImm x nn => formatI 0x7#4 x nn
  | .ldReg x y => formatD 0x8#4 x y 0x0#4
  | .or x y => formatD 0x8#4 x y 0x1#4
  | .and x y => formatD 0x8#4 x y 0x2#4
  | .xor x y => formatD 0x8#4 x y 0x3#4
  | .addReg x y => formatD 0x8#4 x y 0x4#4
  | .sub x y => formatD 0x8#4 x y 0x5#4
  | .shr x y => formatD 0x8#4 x y 0x6#4
  | .subn x y => formatD 0x8#4 x y 0x7#4
  | .shl x y => formatD 0x8#4 x y 0xE#4
  | .sneReg x y => formatD 0x9#4 x y 0x0#4
  | .ldI nnn => formatA 0xA#4 nnn
  | .jpV0 nnn => formatA 0xB#4 nnn
  | .rnd x nn => formatI 0xC#4 x nn
  | .drw x y n => formatD 0xD#4 x y n
  | .skp x => formatI 0xE#4 x 0x9E#8
  | .sknp x => formatI 0xE#4 x 0xA1#8
  | .ldVxDT x => formatI 0xF#4 x 0x07#8
  | .ldVxK x => formatI 0xF#4 x 0x0A#8
  | .ldDTVx x => formatI 0xF#4 x 0x15#8
  | .ldSTVx x => formatI 0xF#4 x 0x18#8
  | .addI x => formatI 0xF#4 x 0x1E#8
  | .ldF x => formatI 0xF#4 x 0x29#8
  | .ldB x => formatI 0xF#4 x 0x33#8
  | .storeRegs x => formatI 0xF#4 x 0x55#8
  | .loadRegs x => formatI 0xF#4 x 0x65#8

/-- The high byte of a word, the first of its two bytes in memory (rule R65). -/
def highByte (w : Word) : Byte := w.extractLsb' 8 8

/-- The low byte of a word, the second of its two bytes in memory (rule R65). -/
def lowByte (w : Word) : Byte := w.extractLsb' 0 8

/-- The word of a table row: bit 0 of `w` is bit 0 of the one 16-bit word; bits at and above `nbits` are 0. -/
def tableWord (nbits w : Nat) : Word := BitVec.ofNat 16 (w % 2 ^ nbits)

/-- The instruction this decoder reads from the bits `w` of an opcode-table row. -/
def decodeTableWord (nbits w : Nat) : Option Instr :=
  match decodeBytes [highByte (tableWord nbits w), lowByte (tableWord nbits w)] with
  | .instr i _ => some i
  | .unknown _ => none
  | .truncated => none

end Sys2Proof
end

