-- ==== Sys2Proof/Config.lean ====
section
/-! DEFINITION. What is fixed for the machine (rule R5), the `FONT` table (rules R6, R62), and the free values: what the
spec leaves to the outside world (rules R226, R228), as constants without a body. -/

namespace Sys2Proof.Config

/-- `MEM_SIZE` (rule R5). -/
def memSize : Nat := 4096

/-- `FONT_BASE` (rule R5). -/
def fontBase : Nat := 0x000

/-- `ROM_BASE` (rule R5). -/
def romBase : Nat := 0x200

/-- `ROM_MAX` (rules R5, R71): the longest ROM image. -/
def romMax : Nat := 3584

/-- `STACK_DEPTH` (rules R5, R26; conflict C2, log 21). -/
def stackDepth : Nat := 16

/-- `PC_RESET` (rules R5, R39). -/
def pcReset : Word := 0x0200#16

/-- `FONT`: 16 glyphs of 5 bytes, glyph 0 first. PRESUMED (unsafe, log 5): the bytes are the default table of rule R62,
which the spec itself marks as general knowledge. -/
def font : List Byte :=
  [0xF0#8, 0x90#8, 0x90#8, 0x90#8, 0xF0#8] ++ [0x20#8, 0x60#8, 0x20#8, 0x20#8, 0x70#8] ++
  [0xF0#8, 0x10#8, 0xF0#8, 0x80#8, 0xF0#8] ++ [0xF0#8, 0x10#8, 0xF0#8, 0x10#8, 0xF0#8] ++
  [0x90#8, 0x90#8, 0xF0#8, 0x10#8, 0x10#8] ++ [0xF0#8, 0x80#8, 0xF0#8, 0x10#8, 0xF0#8] ++
  [0xF0#8, 0x80#8, 0xF0#8, 0x90#8, 0xF0#8] ++ [0xF0#8, 0x10#8, 0x20#8, 0x40#8, 0x40#8] ++
  [0xF0#8, 0x90#8, 0xF0#8, 0x90#8, 0xF0#8] ++ [0xF0#8, 0x90#8, 0xF0#8, 0x10#8, 0xF0#8] ++
  [0xF0#8, 0x90#8, 0xF0#8, 0x90#8, 0x90#8] ++ [0xE0#8, 0x90#8, 0xE0#8, 0x90#8, 0xE0#8] ++
  [0xF0#8, 0x80#8, 0x80#8, 0x80#8, 0xF0#8] ++ [0xE0#8, 0x90#8, 0x90#8, 0x90#8, 0xE0#8] ++
  [0xF0#8, 0x80#8, 0xF0#8, 0x80#8, 0xF0#8] ++ [0xF0#8, 0x80#8, 0xF0#8, 0x80#8, 0x80#8]

/-- The agents that take steps while the machine runs (rule R220). The host is none of them: its reset is outside the
step relation (rule R233, log 24). -/
inductive Agent where
  | core
  | timer
  | refresh
  deriving DecidableEq, Repr, Inhabited

/-- FREE VALUE (safe, log 6): the agent that takes turn number `n`, where nothing has fixed it. -/
opaque freeAgent : Nat → Agent

/-- FREE VALUE (safe, log 7): `KEYS` at turn number `n` (rule R228: "none: any value at any step"). -/
opaque freeKeys : Nat → BitVec 16

/-- FREE VALUE (safe, log 7): `KREL` at turn number `n` (rule R228). -/
opaque freeKrel : Nat → Option Nibble

/-- FREE VALUE (safe, log 7): `RAND` at turn number `n` (rules R161, R228). -/
opaque freeRand : Nat → Byte

end Sys2Proof.Config
end

