-- ==== Sys2Proof/Machine/State.lean ====
section
/-! DEFINITION. The state (the tuple of 10_state.md, rules R20 to R33), the reasons a step can stop, and the state after
reset (rules R39, R290). -/

namespace Sys2Proof.Machine

/-- The fault causes (rule R250). -/
inductive Cause where
  | unknownOpcode
  | stackOverflow
  | stackUnderflow
  /-- Reserved: no instruction and no fetch raises it (rule R254, log 11). -/
  | outOfBounds
  deriving DecidableEq, Repr

/-- The run state `RS` (rule R30). -/
inductive RunState where
  | running
  /-- waiting for a key release, with the latched target register (rule R203) -/
  | waitingForKey (x : Nibble)
  | halted (c : Cause)
  deriving DecidableEq, Repr

/-- The fault record `FC` (rule R31): the cause (none is code 0), the word and its address. -/
structure FaultRecord where
  cause : Option Cause
  word : Word
  addr : Word
  deriving DecidableEq, Repr

/-- One turn of the outside world: which agent goes next (rule R226) and what stands on the input ports `keys`, `krel`,
`rand` at that moment (rules R227, R228). -/
structure Turn where
  agent : Config.Agent
  keys : BitVec 16
  krel : Option Nibble
  rand : Byte
  deriving DecidableEq, Repr

/-- The register file `V` (rule R20). -/
abbrev Registers := Vector Byte 16

/-- The call stack's entries `STK` (rule R26). -/
abbrev CallStack := Vector Word 16

/-- The framebuffer `FB` (rule R33): 32 rows of 64 pixels, `true` is on. -/
abbrev Framebuffer := Vector (Vector Bool 64) 32

/-- The memory `M` (rule R32): the cells that differ from what an unlisted address reads as (`Memory.resetByte`), by
rising address. -/
abbrev Memory := List Host.Cell

structure State where
  /-- `V[0..15]` (rule R20) -/
  v : Registers
  /-- `I` (rule R23) -/
  i : Word
  /-- `PC` (rule R24), 16 bits, never masked at storage -/
  pc : Word
  /-- `SP`, the depth of the call stack, 0 to 16 (rule R26) -/
  sp : Fin 17
  /-- `STK[0..15]` (rule R26) -/
  stk : CallStack
  /-- `DT` (rule R28) -/
  dt : Byte
  /-- `ST` (rule R29) -/
  st : Byte
  /-- `RS` (rule R30) -/
  rs : RunState
  /-- `FC` (rule R31) -/
  fc : FaultRecord
  /-- `M` (rule R32) -/
  mem : Memory
  /-- `FB` (rule R33) -/
  fb : Framebuffer
  /-- THE MODEL'S OWN (log 6): the coming turns that the outside world has fixed, oldest first -/
  turns : List Turn
  /-- THE MODEL'S OWN (log 6): the number of turns taken, the index of the free values -/
  turnCount : Nat
  deriving DecidableEq, Repr

/-- Why the machine takes no step. -/
inductive Fault where
  /-- Raised by `step` in a state whose `RS` is `Halted(c)`, and by nothing else: no agent has a step there (rules R223,
  R233, log 10). Safe: the spec gives no successor either. -/
  | halted (c : Cause)
  deriving DecidableEq, Repr

/-- Why an instruction has no meaning in this model. -/
inductive Refusal where
  /-- Raised by an arm of `exec` whose instruction has no meaning yet. No arm does. Safe. -/
  | notModelled (mnemonic : String)
  deriving DecidableEq, Repr

/-- The state after reset with an empty ROM image (rules R39, R290; `Machine/Reset.lean` loads one). `PC`, `RS`, `SP`,
the fault cause and the font are the spec's. DESIGN CHOICE (unsafe): zero for `V`, `I`, `DT`, `ST`, `FB` and the rest of
memory is the spec's own decision D4 (log 1, log 4); `STK` and the record's word and address are unspecified there
(log 2, log 3); the last two fields are the model's own (log 8). -/
def State.reset : State where
  v := Vector.replicate 16 0x00#8
  i := 0x0000#16
  pc := Config.pcReset
  sp := 0
  stk := Vector.replicate 16 0x0000#16
  dt := 0x00#8
  st := 0x00#8
  rs := .running
  fc := { cause := none, word := 0x0000#16, addr := 0x0000#16 }
  mem := []
  fb := Vector.replicate 32 (Vector.replicate 64 false)
  turns := []
  turnCount := 0

end Sys2Proof.Machine
end

