-- ==== Sys2Proof/Machine/Ops.lean ====
section
/-! DEFINITION. The operations every rule reads and writes the state by (rules R9, R64), taking a fault (rule R258), and
the turns of the outside world (rules R226, R228). -/

namespace Sys2Proof.Machine

/-! Memory (rules R60 to R64). -/

/-- What an address reads as before anything is written there: `FONT` from `FONT_BASE`, else `0x00` (rules R39, R61;
log 4, log 5). -/
def Memory.resetByte (a : Nat) : Byte :=
  if Config.fontBase ≤ a then Config.font.getD (a - Config.fontBase) 0x00#8 else 0x00#8

/-- The byte at the address `a` of the bus. -/
def Memory.cell : Memory → Nat → Byte
  | [], a => Memory.resetByte a
  | c :: m, a => if c.1 = a then c.2 else Memory.cell m a

/-- List a cell at its place by rising address. -/
def Memory.place : Memory → Nat → Byte → Memory
  | [], a, b => [(a, b)]
  | c :: m, a, b => if a < c.1 then (a, b) :: c :: m else c :: Memory.place m a b

/-- Store one byte at the address `a` of the bus; a byte equal to what an unlisted address reads as is not listed. -/
def Memory.put (m : Memory) (a : Nat) (b : Byte) : Memory :=
  let others := m.filter fun c => c.1 ≠ a
  if b = Memory.resetByte a then others else Memory.place others a b

/-- The canonical form: addresses strictly rising and below 4096, no entry equal to what an unlisted address reads as. -/
abbrev Memory.wf (m : Memory) : Prop :=
  m.Pairwise (fun c d => c.1 < d.1) ∧ ∀ c ∈ m, c.1 < Config.memSize ∧ c.2 ≠ Memory.resetByte c.1

/-- The 12-bit address bus: every address is masked at the point of use (rule R63; D1, log 11). -/
def busAddr (a : Word) : Nat := (a &&& 0x0FFF#16).toNat

/-- `MemRead(a, 1)` (rule R64). -/
def Memory.read (m : Memory) (a : Word) : Byte := m.cell (busAddr a)

/-- `MemWrite(a, 1, v)` (rule R64). -/
def Memory.write (m : Memory) (a : Word) (b : Byte) : Memory := m.put (busAddr a) b

/-- `MemRead(a, 2)` (rules R64, R65): the fetch, first byte high. -/
def Memory.readWord (m : Memory) (a : Word) : Word := m.read a ++ m.read (a + 1)

/-! Registers (rules R9, R20). -/

def Registers.get (v : Registers) (x : Nibble) : Byte := v[x.toNat]'x.isLt

def Registers.put (v : Registers) (x : Nibble) (b : Byte) : Registers := v.set x.toNat b x.isLt

/-- `V[x]` (rule R20). -/
def State.getV (s : State) (x : Nibble) : Byte := Registers.get s.v x

/-- `V[x] <- b` (rule R20). -/
def State.setV (s : State) (x : Nibble) (b : Byte) : State := { s with v := Registers.put s.v x b }

/-- The index of `VF`, the flag register (rule R21). -/
def vf : Nibble := 0xF#4

/-! Framebuffer (rules R33, R122). -/

/-- `get(x, y)` -/
def Framebuffer.get (fb : Framebuffer) (x : Fin 64) (y : Fin 32) : Bool := fb[y.val][x.val]

/-- `set(x, y, b)` -/
def Framebuffer.put (fb : Framebuffer) (x : Fin 64) (y : Fin 32) (b : Bool) : Framebuffer :=
  fb.set y.val (fb[y.val].set x.val b x.isLt) y.isLt

/-- `clear()` -/
def Framebuffer.clear : Framebuffer := Vector.replicate 32 (Vector.replicate 64 false)

/-! Program counter (rules R24, R138). -/

/-- `pc <- (PC + 2) mod 65536`: the pre-advance of the core step, the skip, and the end of a wait. -/
def State.advance (s : State) : State := { s with pc := s.pc + 2 }

/-- `skip` under a condition (rule R138). -/
def State.skipIf (s : State) (taken : Bool) : State := if taken then s.advance else s

/-- The address `A` this instruction was fetched from: inside an instruction `PC` is `A + 2` (rule R9, log 19). -/
def State.instrAddr (s : State) : Word := s.pc - 2

/-! Call stack (rules R26, R27). -/

/-- `push(v)`, where the stack is not full: `STK[SP] <- v; SP <- SP + 1`. -/
def State.push (s : State) (a : Word) (room : s.sp.val < 16) : State :=
  { s with stk := s.stk.set s.sp.val a room, sp := ⟨s.sp.val + 1, by omega⟩ }

/-- The top entry, `STK[SP - 1]`, where the stack is not empty (rule R26). -/
def State.top (s : State) : Word := s.stk[s.sp.val - 1]

/-- The decrement of `pop()`: the popped entry stays in place (rule R27). -/
def State.drop (s : State) : State := { s with sp := ⟨s.sp.val - 1, by omega⟩ }

/-! Faults (rules R31, R250, R258, R259). -/

/-- Taking a fault (rule R258): `FC <- (c, w, A)`, `RS <- Halted(c)`, nothing else; `PC` keeps the pre-advance
(D11, log 16). There is no handler, and no return from it (rule R259). -/
def State.raise (s : State) (c : Cause) (w : Word) : State :=
  { s with rs := .halted c, fc := { cause := some c, word := w, addr := s.instrAddr } }

/-! Turns (rules R226, R228; log 6, log 7). -/

/-- The turn of the outside world numbered `n`, where nothing has fixed it: a free value. -/
def freeTurn (n : Nat) : Turn where
  agent := Config.freeAgent n
  keys := Config.freeKeys n
  krel := Config.freeKrel n
  rand := Config.freeRand n

/-- The turn that comes next: the oldest one listed, else a free one. -/
def State.turn (s : State) : Turn :=
  match s.turns with
  | t :: _ => t
  | [] => freeTurn s.turnCount

/-- The turn is over. -/
def State.endTurn (s : State) : State := { s with turns := s.turns.tail, turnCount := s.turnCount + 1 }

/-- The next turn is the core's, on the inputs it had; the turns after it stay. -/
def State.coreNext (s : State) : State := { s with turns := { s.turn with agent := .core } :: s.turns.tail }

/-- The outcomes of an instruction. -/
abbrev Outcome := Host.Outcome State Fault Refusal

/-- Apply `f` to the next state, if there is one. -/
def mapNext (f : State → State) : Outcome → Outcome
  | .next s => .next (f s)
  | .fault r => .fault r
  | .refused r => .refused r

end Sys2Proof.Machine
end

