-- ==== Sys2Proof/Machine/Flags.lean ====
section
/-! DEFINITION. The values written to `VF` as a flag (rules R21, R22): always `0x00` or `0x01`. -/

namespace Sys2Proof.Machine

def flagByte (b : Bool) : Byte := if b then 0x01#8 else 0x00#8

/-- `8XY4`: 1 on a carry out of bit 7 (rules R22, R156). -/
def carryOut (a b : Byte) : Byte := flagByte (decide (255 < a.toNat + b.toNat))

/-- `8XY5`, `8XY7`: 1 when `a - b` needs no borrow (rules R22, R157, R159). -/
def noBorrow (a b : Byte) : Byte := flagByte (decide (b.toNat ≤ a.toNat))

/-- `8XY6`: the bit shifted out at the right (rules R22, R158). -/
def lowBitOut (b : Byte) : Byte := flagByte (b.getLsbD 0)

/-- `8XYE`: the bit shifted out at the left (rules R22, R160). -/
def highBitOut (b : Byte) : Byte := flagByte (b.getLsbD 7)

/-- `DXYN`: 1 if any pixel went from on to off (rules R22, R121). -/
def collisionFlag (coll : Bool) : Byte := flagByte coll

/-- Result first, flag second: the order of `8XY4`, `8XY5`, `8XY7` (rule R162; D6, log 12). The flag stays when
`X = 0xF`. -/
def State.resultThenFlag (s : State) (x : Nibble) (result flag : Byte) : State := (s.setV x result).setV vf flag

/-- Flag first, result second: the order of `8XY6`, `8XYE` (rule R162; D6, log 12). The result stays when `X = 0xF`. -/
def State.flagThenResult (s : State) (x : Nibble) (flag result : Byte) : State := (s.setV vf flag).setV x result

end Sys2Proof.Machine
end

