-- ==== Sys2Proof/Machine/Operands.lean ====
section
/-! DEFINITION. The operand forms: the immediates (rule R92), the address through `I` (rule R186), the glyph address
(rule R182), the jump targets (rules R131, R137), the decimal digits (rule R183), the key number (rule R200). -/

namespace Sys2Proof.Machine

/-- `zext_16(NNN)` (rules R8, R92). -/
def nnnTarget (nnn : Addr12) : Word := nnn.setWidth 16

/-- `zext_16(V[0]) + zext_16(NNN)` (rule R137). -/
def offsetTarget (v0 : Byte) (nnn : Addr12) : Word := v0.setWidth 16 + nnn.setWidth 16

/-- `I + r` (rules R63, R186), formed before the mask. -/
def dataAddr (i : Word) (r : Nat) : Word := i + BitVec.ofNat 16 r

/-- `v[3:0]`, the low nibble of a register (rules R182, R200). -/
def lowNibble (b : Byte) : Nibble := b.extractLsb' 0 4

/-- The base address of a glyph (rule R182): five bytes a glyph from `FONT_BASE`. -/
def glyphAddr (b : Byte) : Word := BitVec.ofNat 16 Config.fontBase + (lowNibble b).setWidth 16 * 5

/-- `KEYS[k]` for the key a register selects by its low nibble (rules R200, R201; D8, log 14). -/
def keyDown (keys : BitVec 16) (b : Byte) : Bool := keys.getLsbD (lowNibble b).toNat

/-- The hundreds digit (rule R183). -/
def hundreds (b : Byte) : Byte := b / 100

/-- The tens digit (rule R183). -/
def tens (b : Byte) : Byte := b / 10 % 10

/-- The units digit (rule R183). -/
def units (b : Byte) : Byte := b % 10

/-- The start column of a sprite, `V[X] mod 64` (rule R121). -/
def startColumn (b : Byte) : Nat := b.toNat % 64

/-- The start row of a sprite, `V[Y] mod 32` (rule R121). -/
def startRow (b : Byte) : Nat := b.toNat % 32

end Sys2Proof.Machine
end

