-- ==== Sys2Proof/Machine/Alu.lean ====
section
/-! DEFINITION. Loads, arithmetic, logic, shifts, random (42_alu.md). Every operand is read before any write (rule R162);
an 8-bit sum or difference is modulo 256 (rule R163). -/

namespace Sys2Proof.Machine

/-- `6XNN` LD Vx, nn (rule R150). -/
def execLdImm (x : Nibble) (nn : Byte) (s : State) : Outcome := .next (s.setV x nn)

/-- `7XNN` ADD Vx, nn (rule R151): no flag. -/
def execAddImm (x : Nibble) (nn : Byte) (s : State) : Outcome := .next (s.setV x (s.getV x + nn))

/-- `8XY0` LD Vx, Vy (rule R152). -/
def execLdReg (x y : Nibble) (s : State) : Outcome := .next (s.setV x (s.getV y))

/-- `8XY1` OR Vx, Vy (rule R153; D7, log 13). -/
def execOr (x y : Nibble) (s : State) : Outcome := .next (s.setV x (s.getV x ||| s.getV y))

/-- `8XY2` AND Vx, Vy (rule R154; D7, log 13). -/
def execAnd (x y : Nibble) (s : State) : Outcome := .next (s.setV x (s.getV x &&& s.getV y))

/-- `8XY3` XOR Vx, Vy (rule R155; D7, log 13). -/
def execXor (x y : Nibble) (s : State) : Outcome := .next (s.setV x (s.getV x ^^^ s.getV y))

/-- `8XY4` ADD Vx, Vy (rule R156). -/
def execAddReg (x y : Nibble) (s : State) : Outcome :=
  .next (s.resultThenFlag x (s.getV x + s.getV y) (carryOut (s.getV x) (s.getV y)))

/-- `8XY5` SUB Vx, Vy (rule R157). -/
def execSub (x y : Nibble) (s : State) : Outcome :=
  .next (s.resultThenFlag x (s.getV x - s.getV y) (noBorrow (s.getV x) (s.getV y)))

/-- `8XY6` SHR Vx, Vy (rule R158): the source is `V[Y]`. -/
def execShr (x y : Nibble) (s : State) : Outcome :=
  .next (s.flagThenResult x (lowBitOut (s.getV y)) (s.getV y >>> 1))

/-- `8XY7` SUBN Vx, Vy (rule R159). -/
def execSubn (x y : Nibble) (s : State) : Outcome :=
  .next (s.resultThenFlag x (s.getV y - s.getV x) (noBorrow (s.getV y) (s.getV x)))

/-- `8XYE` SHL Vx, Vy (rule R160): the source is `V[Y]`. -/
def execShl (x y : Nibble) (s : State) : Outcome :=
  .next (s.flagThenResult x (highBitOut (s.getV y)) (s.getV y <<< 1))

/-- `CXNN` RND Vx, nn (rule R161): `RAND` is the input of this turn, under no law (D9, log 7). -/
def execRnd (x : Nibble) (nn : Byte) (s : State) : Outcome := .next (s.setV x (s.turn.rand &&& nn))

end Sys2Proof.Machine
end

