-- ==== Sys2Proof/Machine/Display.lean ====
section
/-! DEFINITION. The display instructions `00E0`, `DXYN` (40_display.md). `PC` is already `A + 2` (rule R221). -/

namespace Sys2Proof.Machine

/-- One column of the loop of rule R121, on row `y`: `p` is the framebuffer and `coll` so far. A column right of the
screen is dropped; a sprite bit 0 changes nothing. -/
def drawColumn (y : Fin 32) (x0 : Nat) (b : Byte) (p : Framebuffer × Bool) (c : Nat) : Framebuffer × Bool :=
  if h : x0 + c < 64 then
    if b.getLsbD (7 - c) then
      let old := Framebuffer.get p.1 ⟨x0 + c, h⟩ y
      (Framebuffer.put p.1 ⟨x0 + c, h⟩ y (!old), p.2 || old)
    else p
  else p

/-- One row of the loop of rule R121: the sprite byte is at `I + r`. A row below the screen is dropped. -/
def drawRow (m : Memory) (i : Word) (x0 y0 : Nat) (p : Framebuffer × Bool) (r : Nat) : Framebuffer × Bool :=
  if h : y0 + r < 32 then
    (List.range 8).foldl (drawColumn ⟨y0 + r, h⟩ x0 (m.read (dataAddr i r))) p
  else p

/-- `draw_sprite` (rules R121, R122): the framebuffer and the collision after `n` rows. -/
def drawSprite (m : Memory) (i : Word) (x0 y0 n : Nat) (fb : Framebuffer) : Framebuffer × Bool :=
  (List.range n).foldl (drawRow m i x0 y0) (fb, false)

/-- `00E0` CLS (rule R120). -/
def execCls (s : State) : Outcome := .next { s with fb := Framebuffer.clear }

/-- `DXYN` DRW Vx, Vy, n (rule R121; D17, log 17). -/
def execDrw (x y n : Nibble) (s : State) : Outcome :=
  let drawn := drawSprite s.mem s.i (startColumn (s.getV x)) (startRow (s.getV y)) n.toNat s.fb
  .next ({ s with fb := drawn.1 }.setV vf (collisionFlag drawn.2))

end Sys2Proof.Machine
end

