-- ==== Sys2Proof/Machine/Flow.lean ====
section
/-! DEFINITION. The control transfers (41_flow.md). `PC` is already `A + 2` (rule R221); there are no delay slots
(rule R139). -/

namespace Sys2Proof.Machine

/-- `00EE` RET (rule R130): pop into `PC`; `StackUnderflow` on an empty stack (rule R253). -/
def execRet (s : State) : Outcome :=
  if s.sp.val = 0 then .next (s.raise .stackUnderflow (encode .ret))
  else .next { s.drop with pc := s.top }

/-- `1NNN` JP nnn (rule R131). -/
def execJp (nnn : Addr12) (s : State) : Outcome := .next { s with pc := nnnTarget nnn }

/-- `2NNN` CALL nnn (rule R132): push `A + 2`; `StackOverflow` on a full stack (rule R252). -/
def execCall (nnn : Addr12) (s : State) : Outcome :=
  if room : s.sp.val < 16 then .next { s.push s.pc room with pc := nnnTarget nnn }
  else .next (s.raise .stackOverflow (encode (.call nnn)))

/-- `3XNN` SE Vx, nn (rule R133). -/
def execSeImm (x : Nibble) (nn : Byte) (s : State) : Outcome := .next (s.skipIf (s.getV x == nn))

/-- `4XNN` SNE Vx, nn (rule R134). -/
def execSneImm (x : Nibble) (nn : Byte) (s : State) : Outcome := .next (s.skipIf (s.getV x != nn))

/-- `5XY0` SE Vx, Vy (rule R135). -/
def execSeReg (x y : Nibble) (s : State) : Outcome := .next (s.skipIf (s.getV x == s.getV y))

/-- `9XY0` SNE Vx, Vy (rule R136). -/
def execSneReg (x y : Nibble) (s : State) : Outcome := .next (s.skipIf (s.getV x != s.getV y))

/-- `BNNN` JP V0, nnn (rule R137): no wrap, no mask. -/
def execJpV0 (nnn : Addr12) (s : State) : Outcome := .next { s with pc := offsetTarget (s.getV 0x0#4) nnn }

end Sys2Proof.Machine
end

