-- ==== Sys2Proof/Machine/Index.lean ====
section
/-! DEFINITION. The index register and the memory transfers (43_index_memory.md). `I` is unchanged by the transfers
(rule R186; D12, log 13); addresses are masked at the point of use (rule R63). -/

namespace Sys2Proof.Machine

/-- `ANNN` LD I, nnn (rule R180). -/
def execLdI (nnn : Addr12) (s : State) : Outcome := .next { s with i := nnnTarget nnn }

/-- `FX1E` ADD I, Vx (rule R181; conflict C6): masked at storage, no flag (D23, log 13). -/
def execAddI (x : Nibble) (s : State) : Outcome :=
  .next { s with i := (s.i + (s.getV x).setWidth 16) &&& 0x0FFF#16 }

/-- `FX29` LD F, Vx (rule R182). -/
def execLdF (x : Nibble) (s : State) : Outcome := .next { s with i := glyphAddr (s.getV x) }

/-- `FX33` LD B, Vx (rule R183): hundreds, tens, units at `I`, `I + 1`, `I + 2`. -/
def execLdB (x : Nibble) (s : State) : Outcome :=
  let b := s.getV x
  let m := s.mem.write (dataAddr s.i 0) (hundreds b)
  let m := m.write (dataAddr s.i 1) (tens b)
  .next { s with mem := m.write (dataAddr s.i 2) (units b) }

/-- One round of the loop of rule R184. -/
def storeRound (s : State) (m : Memory) (r : Nat) : Memory :=
  m.write (dataAddr s.i r) (s.getV (BitVec.ofNat 4 r))

/-- `FX55` LD [I], Vx (rule R184): `V[0]` to `V[X]`, both included. -/
def execStoreRegs (x : Nibble) (s : State) : Outcome :=
  .next { s with mem := (List.range (x.toNat + 1)).foldl (storeRound s) s.mem }

/-- One round of the loop of rule R185. -/
def loadRound (s : State) (v : Registers) (r : Nat) : Registers :=
  Registers.put v (BitVec.ofNat 4 r) (s.mem.read (dataAddr s.i r))

/-- `FX65` LD Vx, [I] (rule R185): `V[0]` to `V[X]`, both included. -/
def execLoadRegs (x : Nibble) (s : State) : Outcome :=
  .next { s with v := (List.range (x.toNat + 1)).foldl (loadRound s) s.v }

end Sys2Proof.Machine
end

