-- ==== Sys2Proof/Machine/Keypad.lean ====
section
/-! DEFINITION. The keypad and timer instructions (44_keypad_timers.md). -/

namespace Sys2Proof.Machine

/-- `EX9E` SKP Vx (rule R200): the key state is the level at this turn. -/
def execSkp (x : Nibble) (s : State) : Outcome := .next (s.skipIf (keyDown s.turn.keys (s.getV x)))

/-- `EXA1` SKNP Vx (rule R201). -/
def execSknp (x : Nibble) (s : State) : Outcome := .next (s.skipIf (!keyDown s.turn.keys (s.getV x)))

/-- `FX07` LD Vx, DT (rule R202). -/
def execLdVxDT (x : Nibble) (s : State) : Outcome := .next (s.setV x s.dt)

/-- `FX0A` LD Vx, K (rule R203; conflict C3): `PC` is put back to `A` and the wait begins; this step does not look at
`KREL` (D10, log 15). -/
def execLdVxK (x : Nibble) (s : State) : Outcome := .next { s with pc := s.instrAddr, rs := .waitingForKey x }

/-- `FX15` LD DT, Vx (rule R204). -/
def execLdDTVx (x : Nibble) (s : State) : Outcome := .next { s with dt := s.getV x }

/-- `FX18` LD ST, Vx (rule R205). -/
def execLdSTVx (x : Nibble) (s : State) : Outcome := .next { s with st := s.getV x }

end Sys2Proof.Machine
end

