-- ==== Sys2Proof/Machine/Cycle.lean ====
section
/-! DEFINITION. The steps of the agents (50_execution_cycle.md): the core's (rules R221, R222), the timer's (rule R224),
the refresh's (rule R225), and whose turn it is (rules R223, R226). -/

namespace Sys2Proof.Machine

/-- The word fetched at `PC` (rules R90, R221). -/
def State.fetch (s : State) : Word := s.mem.readWord s.pc

/-- One `cycle()` (rule R221): fetch, pre-advance, decode, execute; `UnknownOpcode` on an unknown word (rule R251). -/
def cycle (s : State) : Outcome :=
  match decodeWord s.fetch with
  | .instr i => exec i s.advance
  | .unknown => .next (s.advance.raise .unknownOpcode s.fetch)

/-- One key poll in `WaitingForKey(x)` (rule R222; D10, log 15). -/
def keyPoll (x : Nibble) (s : State) : State :=
  match s.turn.krel with
  | some k => { (s.setV x (k.setWidth 8)).advance with rs := .running }
  | none => s

/-- A timer at rest stays at 0 (rules R28, R224). -/
def countDown (b : Byte) : Byte := if b = 0x00#8 then b else b - 1

/-- One timer tick (rule R224): both timers, nothing else. -/
def timerTick (s : State) : State := { s with dt := countDown s.dt, st := countDown s.st }

/-- One core step, by the run state (rules R221, R222, R223). -/
def coreStep (s : State) : Outcome :=
  match s.rs with
  | .running => cycle s
  | .waitingForKey x => .next (keyPoll x s)
  | .halted c => .fault (.halted c)

/-- One step of an agent (rule R220). A refresh changes no state (rule R225, log 23). -/
def agentStep (a : Config.Agent) (s : State) : Outcome :=
  match a with
  | .core => coreStep s
  | .timer => .next (timerTick s)
  | .refresh => .next s

/-- The next step: whose turn it is comes from the turn (rule R226); from `Halted` no agent has one (rule R223; D14,
log 27). -/
def takeTurn (s : State) : Outcome :=
  match s.rs with
  | .halted c => .fault (.halted c)
  | .running => mapNext State.endTurn (agentStep s.turn.agent s)
  | .waitingForKey _ => mapNext State.endTurn (agentStep s.turn.agent s)

/-- The bytes of `w` stored where the core fetches next, the core running, and the next turn the core's. -/
def placeWord (s : State) (w : Word) : State :=
  { s.coreNext with mem := (s.mem.write s.pc (highByte w)).write (s.pc + 1) (lowByte w), rs := .running }

end Sys2Proof.Machine
end

