-- ==== Sys2Proof/Machine/Step.lean ====
section
/-! DEFINITION. One step of the machine (rules R226, R233), and the placing of one instruction where it is fetched. -/

namespace Sys2Proof.Machine

def step (s : State) : Host.Outcome State Fault Refusal := takeTurn s

/-- `s` with the instruction of an opcode-table row stored at `PC`, running, its next turn the core's: the very next step
fetches and runs it (log 9). -/
def State.withFetchWord (s : State) (nbits w : Nat) : State := placeWord s (tableWord nbits w)

end Sys2Proof.Machine
end

