-- ==== Sys2Proof/Machine/Ports.lean ====
section
/-! DEFINITION. The output ports (rules R227, R230) as functions of the state between two steps (log 22). -/

namespace Sys2Proof.Machine

/-- `tone`: 1 while `ST != 0` (rule R230; D16). -/
def State.tone (s : State) : Bool := s.st != 0x00#8

/-- `run_state`: 0 `Running`, 1 `WaitingForKey`, 2 `Halted` (rule R227; D15). -/
def State.runStatePort (s : State) : BitVec 2 :=
  match s.rs with
  | .running => 0
  | .waitingForKey _ => 1
  | .halted _ => 2

/-- The numeric fault codes (rule R250; D11). -/
def Cause.code : Cause → BitVec 3
  | .unknownOpcode => 1
  | .stackOverflow => 2
  | .stackUnderflow => 3
  | .outOfBounds => 4

/-- `fault_cause`: code 0 is no fault (rules R227, R250). -/
def State.faultCausePort (s : State) : BitVec 3 :=
  match s.fc.cause with
  | none => 0
  | some c => c.code

/-- `fault_word` (rule R227). -/
def State.faultWordPort (s : State) : Word := s.fc.word

/-- `fault_addr` (rule R227). -/
def State.faultAddrPort (s : State) : Word := s.fc.addr

/-- `fb`: pixel `(x, y)` at index `y * 64 + x`, what a refresh presents (rules R33, R225, R227; D18). -/
def State.fbPort (s : State) : Vector Bool 2048 :=
  Vector.ofFn fun k => Framebuffer.get s.fb ⟨k.val % 64, Nat.mod_lt _ (by omega)⟩ ⟨k.val / 64, by omega⟩

end Sys2Proof.Machine
end

