-- ==== Sys2Proof/Machine/Reset.lean ====
section
/-! DEFINITION. The host's reset with a ROM image (rules R71, R229, R255, R290). It is outside the step relation
(rule R233, log 24). -/

namespace Sys2Proof.Machine

/-- Why the host refuses to start the machine (rule R255). -/
inductive LoadError where
  /-- the image is longer than `ROM_MAX` -/
  | romTooLarge
  deriving DecidableEq, Repr

/-- `load_program` (rule R71): the bytes in order from the address `a` of the bus. -/
def Memory.load : Memory → Nat → List Byte → Memory
  | m, _, [] => m
  | m, a, b :: bs => Memory.load (m.put a b) (a + 1) bs

/-- Reset with a ROM image (rule R290): no first state for one that is too long. -/
def hostReset (rom : List Byte) : Except LoadError State :=
  if Config.romMax < rom.length then .error .romTooLarge
  else .ok { State.reset with mem := Memory.load [] Config.romBase rom }

end Sys2Proof.Machine
end

