-- ==== Sys2Proof/Safety.lean ====
section
/-! DEFINITION. What a state that a run can reach looks like (rule R40), the launch premises (rule R297), and what a safe
run is. -/

namespace Sys2Proof.Machine

/-- `RS` and `FC` say the same (rules R30, R31, R250): `Halted(c)` exactly when the record's cause is `c`. -/
def State.FaultRecorded (s : State) : Prop := ∀ c, s.rs = .halted c ↔ s.fc.cause = some c

/-- The invariant of every reachable state (rule R40, and rules R31, R254): the memory keeps its canonical form, `I` stays
below 4096, `FC` says what `RS` says, `OutOfBounds` is never raised. (`SP <= 16` and the 8-bit widths are in the types.) -/
structure State.Inv (s : State) : Prop where
  memory : s.mem.wf
  index : s.i.toNat ≤ 0x0FFF
  record : s.FaultRecorded
  inBounds : s.fc.cause ≠ some .outOfBounds

/-- While the machine waits, `PC` is at the `FX0A` that began the wait (rule R203; D26, log 15). -/
def State.WaitsAtInstr (s : State) : Prop := ∀ x, s.rs = .waitingForKey x → decodeWord s.fetch = .instr (.ldVxK x)

/-- A state some finite run passes through: every state a step leads to is one more. -/
inductive Reachable (start : State) : State → Prop where
  | start : Reachable start start
  | step {s t : State} : Reachable start s → step s = .next t → Reachable start t

/-- No fault has been taken (premise `NoFault` of rule R297). -/
def State.NoFault (s : State) : Prop := (∀ c, s.rs ≠ .halted c) ∧ s.fc.cause = none

/-- A safe run never halts: `Halted` is never a successful end (rule R232). -/
def SafeFrom (start : State) : Prop := ∀ s, Reachable start s → s.NoFault

/-! The other premises of rule R297. -/

def State.EntryAt200 (s : State) : Prop := s.pc = 0x0200#16

def State.StackEmpty (s : State) : Prop := s.sp = 0

def State.FontLoaded (s : State) : Prop := ∀ k, k < 80 → s.mem.cell k = Config.font.getD k 0x00#8

def State.RomLoaded (s : State) (rom : List Byte) : Prop := ∀ k b, rom[k]? = some b → s.mem.cell (0x200 + k) = b

def State.RestZero (s : State) (rom : List Byte) : Prop :=
  ∀ a, 80 ≤ a → a < 0x200 ∨ 0x200 + rom.length ≤ a → s.mem.cell a = 0x00#8

def State.RegsZero (s : State) : Prop :=
  (∀ x, s.getV x = 0x00#8) ∧ s.i = 0x0000#16 ∧ s.dt = 0x00#8 ∧ s.st = 0x00#8

def State.ScreenBlank (s : State) : Prop := ∀ x y, Framebuffer.get s.fb x y = false

/-! The terms the statements of frames are made of. -/

/-- From `s` to `t` the register `x` takes the value `b`, and nothing else changes (rule R10). -/
def OnlyRegister (s t : State) (x : Nibble) (b : Byte) : Prop :=
  t.getV x = b ∧ (∀ k, k ≠ x → t.getV k = s.getV k) ∧ t = { s with v := t.v }

/-- The registers an instruction may write at its own step: the table of rule R20 (`FX0A` writes at a later step). -/
def MayWriteV (i : Instr) (k : Nibble) : Prop :=
  match i with
  | .ldImm x _ | .rnd x _ | .addImm x _ | .ldVxDT x | .ldReg x _ | .or x _ | .and x _ | .xor x _ => k = x
  | .addReg x _ | .sub x _ | .subn x _ | .shr x _ | .shl x _ => k = x ∨ k = 0xF#4
  | .drw _ _ _ => k = 0xF#4
  | .loadRegs x => k.toNat ≤ x.toNat
  | .cls | .ret | .jp _ | .call _ | .seImm _ _ | .sneImm _ _ | .seReg _ _ | .sneReg _ _ | .ldI _ | .jpV0 _
  | .skp _ | .sknp _ | .ldVxK _ | .ldDTVx _ | .ldSTVx _ | .addI _ | .ldF _ | .ldB _ | .storeRegs _ => False

end Sys2Proof.Machine
end

