-- ==== Sys2Proof/Certificates/Slice0/Obligations.lean ====
section
/-! DEFINITION. The statements for the provers. In a statement about `exec` the state `s` is the one the instruction runs
in: the fetch and the pre-advance are done, so `s.pc` is `A + 2` (rules R9, R221), and `StepRunsTheDecodedInstruction`
says so. An equation `t = { s with … }` says the frame: every field it does not name is as before. -/

open Sys2Proof Sys2Proof.Machine

/-! ## Reset and load -/

/-- The state after reset with an empty image. `PC`, `RS`, `SP`, no fault and `FONT` at `0x000` are the source's; the
zeros of `V`, `I`, `DT`, `ST`, `FB` and of memory past the font are the spec's decision D4 (10_state.md section 13,
"zero"; log 1, log 4). -/
def Obligations.ResetStateHoldsTheResetValues : Prop :=
  State.reset.pc = 0x0200#16 ∧ State.reset.rs = .running ∧ State.reset.sp = 0 ∧ State.reset.fc.cause = none ∧
  (∀ k, k < 80 → State.reset.mem.cell k = Config.font.getD k 0x00#8) ∧
  (∀ k, 80 ≤ k → State.reset.mem.cell k = 0x00#8) ∧
  (∀ x, State.reset.getV x = 0x00#8) ∧ State.reset.i = 0x0000#16 ∧ State.reset.dt = 0x00#8 ∧ State.reset.st = 0x00#8 ∧
  (∀ x y, Framebuffer.get State.reset.fb x y = false) ∧ State.reset.tone = false

/-- Reset with a ROM image of at most 3584 bytes gives a state that meets every launch premise of 70_reset_and_hazards.md
section 5 and the invariant. (`RestZero`, `RegsZero`, `ScreenBlank` are D4; log 1, log 4.) -/
def Obligations.HostResetMeetsTheLaunchPremises : Prop :=
  ∀ rom : List Byte, rom.length ≤ 3584 →
    ∃ s, hostReset rom = .ok s ∧ s.NoFault ∧ s.rs = .running ∧ s.EntryAt200 ∧ s.StackEmpty ∧ s.FontLoaded ∧
      s.RomLoaded rom ∧ s.RestZero rom ∧ s.RegsZero ∧ s.ScreenBlank ∧ s.Inv

/-- "`RomTooLarge` is raised exactly when the image is longer than 3584 bytes" (60_exceptions.md section 1). -/
def Obligations.RomIsRefusedExactlyWhenTooLarge : Prop :=
  ∀ rom : List Byte, hostReset rom = .error .romTooLarge ↔ 3584 < rom.length

/-! ## Memory -/

/-- Rule R64 whole: both reads, and a write that changes exactly one byte. -/
def Obligations.MemoryPrimitivesReadWhatWasWritten : Prop :=
  ∀ (m : Memory) (a a' : Word) (b : Byte),
    m.read a = m.cell (a &&& 0x0FFF#16).toNat ∧
    m.readWord a = m.cell (a &&& 0x0FFF#16).toNat ++ m.cell ((a + 1) &&& 0x0FFF#16).toNat ∧
    (m.write a b).read a' = (if a' &&& 0x0FFF#16 = a &&& 0x0FFF#16 then b else m.read a')

/-- The fetch is big-endian (rule R65): the byte at the lower address gives `OP` and `X`, the other `Y` and `N`, at every
`PC`, odd or even. -/
def Obligations.FetchIsBigEndian : Prop :=
  ∀ s : State,
    opOf s.fetch = (s.mem.read s.pc).extractLsb' 4 4 ∧ xOf s.fetch = (s.mem.read s.pc).extractLsb' 0 4 ∧
    yOf s.fetch = (s.mem.read (s.pc + 1)).extractLsb' 4 4 ∧ nOf s.fetch = (s.mem.read (s.pc + 1)).extractLsb' 0 4

/-- A store is seen by every later fetch (20_memory.md section 8): two bytes stored at `a` and `a + 1` are the word
fetched at `a`, at every `a`. (That this holds at the end of memory too, `0xFFF` included, is the 12-bit mask of
20_memory.md section 2, the spec's decision D1, log 11.) -/
def Obligations.StoredBytesAreFetchedAsAWord : Prop :=
  ∀ (s : State) (hi lo : Byte),
    State.fetch { s with mem := (s.mem.write s.pc hi).write (s.pc + 1) lo } = hi ++ lo

/-- The model's own (log 4): two canonical memories that read alike at every address of the bus are the same data. -/
def Obligations.CanonicalMemoriesThatReadAlikeAreEqual : Prop :=
  ∀ m m' : Memory, m.wf → m'.wf → (∀ a : Word, m.read a = m'.read a) → m = m'

/-! ## Encoding -/

/-- Decoding an encoded instruction gives it back, with every operand at every value. -/
def Obligations.DecodeOfEncodeIsTheInstruction : Prop :=
  ∀ i : Instr, i.wellFormed = true ∧ decodeWord (encode i) = .instr i

/-- Each word has one meaning: the instruction a word decodes to encodes to that word. -/
def Obligations.EncodeOfDecodeIsTheWord : Prop :=
  ∀ (w : Word) (i : Instr), decodeWord w = .instr i → encode i = w

/-- The opcode map (30_encoding.md section 4): a word that fits a row's mask and match is that row's instruction, with the
operands of 30_encoding.md section 3. -/
def Obligations.EveryRowOfTheOpcodeMapDecodes : Prop :=
  ∀ w : Word,
    (w = 0x00E0#16 → decodeWord w = .instr .cls) ∧
    (w = 0x00EE#16 → decodeWord w = .instr .ret) ∧
    (w &&& 0xF000#16 = 0x1000#16 → decodeWord w = .instr (.jp (w.extractLsb' 0 12))) ∧
    (w &&& 0xF000#16 = 0x2000#16 → decodeWord w = .instr (.call (w.extractLsb' 0 12))) ∧
    (w &&& 0xF000#16 = 0x3000#16 → decodeWord w = .instr (.seImm (w.extractLsb' 8 4) (w.extractLsb' 0 8))) ∧
    (w &&& 0xF000#16 = 0x4000#16 → decodeWord w = .instr (.sneImm (w.extractLsb' 8 4) (w.extractLsb' 0 8))) ∧
    (w &&& 0xF00F#16 = 0x5000#16 → decodeWord w = .instr (.seReg (w.extractLsb' 8 4) (w.extractLsb' 4 4))) ∧
    (w &&& 0xF000#16 = 0x6000#16 → decodeWord w = .instr (.ldImm (w.extractLsb' 8 4) (w.extractLsb' 0 8))) ∧
    (w &&& 0xF000#16 = 0x7000#16 → decodeWord w = .instr (.addImm (w.extractLsb' 8 4) (w.extractLsb' 0 8))) ∧
    (w &&& 0xF00F#16 = 0x8000#16 → decodeWord w = .instr (.ldReg (w.extractLsb' 8 4) (w.extractLsb' 4 4))) ∧
    (w &&& 0xF00F#16 = 0x8001#16 → decodeWord w = .instr (.or (w.extractLsb' 8 4) (w.extractLsb' 4 4))) ∧
    (w &&& 0xF00F#16 = 0x8002#16 → decodeWord w = .instr (.and (w.extractLsb' 8 4) (w.extractLsb' 4 4))) ∧
    (w &&& 0xF00F#16 = 0x8003#16 → decodeWord w = .instr (.xor (w.extractLsb' 8 4) (w.extractLsb' 4 4))) ∧
    (w &&& 0xF00F#16 = 0x8004#16 → decodeWord w = .instr (.addReg (w.extractLsb' 8 4) (w.extractLsb' 4 4))) ∧
    (w &&& 0xF00F#16 = 0x8005#16 → decodeWord w = .instr (.sub (w.extractLsb' 8 4) (w.extractLsb' 4 4))) ∧
    (w &&& 0xF00F#16 = 0x8006#16 → decodeWord w = .instr (.shr (w.extractLsb' 8 4) (w.extractLsb' 4 4))) ∧
    (w &&& 0xF00F#16 = 0x8007#16 → decodeWord w = .instr (.subn (w.extractLsb' 8 4) (w.extractLsb' 4 4))) ∧
    (w &&& 0xF00F#16 = 0x800E#16 → decodeWord w = .instr (.shl (w.extractLsb' 8 4) (w.extractLsb' 4 4))) ∧
    (w &&& 0xF00F#16 = 0x9000#16 → decodeWord w = .instr (.sneReg (w.extractLsb' 8 4) (w.extractLsb' 4 4))) ∧
    (w &&& 0xF000#16 = 0xA000#16 → decodeWord w = .instr (.ldI (w.extractLsb' 0 12))) ∧
    (w &&& 0xF000#16 = 0xB000#16 → decodeWord w = .instr (.jpV0 (w.extractLsb' 0 12))) ∧
    (w &&& 0xF000#16 = 0xC000#16 → decodeWord w = .instr (.rnd (w.extractLsb' 8 4) (w.extractLsb' 0 8))) ∧
    (w &&& 0xF000#16 = 0xD000#16 →
      decodeWord w = .instr (.drw (w.extractLsb' 8 4) (w.extractLsb' 4 4) (w.extractLsb' 0 4))) ∧
    (w &&& 0xF0FF#16 = 0xE09E#16 → decodeWord w = .instr (.skp (w.extractLsb' 8 4))) ∧
    (w &&& 0xF0FF#16 = 0xE0A1#16 → decodeWord w = .instr (.sknp (w.extractLsb' 8 4))) ∧
    (w &&& 0xF0FF#16 = 0xF007#16 → decodeWord w = .instr (.ldVxDT (w.extractLsb' 8 4))) ∧
    (w &&& 0xF0FF#16 = 0xF00A#16 → decodeWord w = .instr (.ldVxK (w.extractLsb' 8 4))) ∧
    (w &&& 0xF0FF#16 = 0xF015#16 → decodeWord w = .instr (.ldDTVx (w.extractLsb' 8 4))) ∧
    (w &&& 0xF0FF#16 = 0xF018#16 → decodeWord w = .instr (.ldSTVx (w.extractLsb' 8 4))) ∧
    (w &&& 0xF0FF#16 = 0xF01E#16 → decodeWord w = .instr (.addI (w.extractLsb' 8 4))) ∧
    (w &&& 0xF0FF#16 = 0xF029#16 → decodeWord w = .instr (.ldF (w.extractLsb' 8 4))) ∧
    (w &&& 0xF0FF#16 = 0xF033#16 → decodeWord w = .instr (.ldB (w.extractLsb' 8 4))) ∧
    (w &&& 0xF0FF#16 = 0xF055#16 → decodeWord w = .instr (.storeRegs (w.extractLsb' 8 4))) ∧
    (w &&& 0xF0FF#16 = 0xF065#16 → decodeWord w = .instr (.loadRegs (w.extractLsb' 8 4)))

/-- The `Unknown` words are exactly the table of 30_encoding.md section 4, family by family, and are the words no row of
the opcode map covers (D20, log 18). -/
def Obligations.UnknownWordsAreExactlyTheTable : Prop :=
  ∀ w : Word,
    (decodeWord w = .unknown ↔
      (opOf w = 0x0#4 ∧ w ≠ 0x00E0#16 ∧ w ≠ 0x00EE#16) ∨
      (opOf w = 0x5#4 ∧ nOf w ≠ 0x0#4) ∨
      (opOf w = 0x8#4 ∧ nOf w ∈ [0x8#4, 0x9#4, 0xA#4, 0xB#4, 0xC#4, 0xD#4, 0xF#4]) ∨
      (opOf w = 0x9#4 ∧ nOf w ≠ 0x0#4) ∨
      (opOf w = 0xE#4 ∧ nnOf w ∉ [0x9E#8, 0xA1#8]) ∨
      (opOf w = 0xF#4 ∧ nnOf w ∉ [0x07#8, 0x0A#8, 0x15#8, 0x18#8, 0x1E#8, 0x29#8, 0x33#8, 0x55#8, 0x65#8])) ∧
    (decodeWord w = .unknown ↔ ∀ r ∈ opcodeMap, r.covers w = false)

/-- Ten words written out bit by bit from the spec's encodings: of families 0, 2, 7, 8, A, D, E, F, and one `Unknown` word
of family 5. (That `5121` is `Unknown`, its last digit being compared, is the spec's decision D20, log 18. The tests have
a word of every row.) -/
def Obligations.WrittenOutWordsDecode : Prop :=
  decodeWord 0b0000000011100000#16 = .instr .cls ∧
  decodeWord 0b0010101010111100#16 = .instr (.call 0xABC#12) ∧
  decodeWord 0b0111001000000001#16 = .instr (.addImm 2 0x01#8) ∧
  decodeWord 0b1000000100100101#16 = .instr (.sub 1 2) ∧
  decodeWord 0b1000111100011110#16 = .instr (.shl 0xF 1) ∧
  decodeWord 0b1010001011110000#16 = .instr (.ldI 0x2F0#12) ∧
  decodeWord 0b1101000100100101#16 = .instr (.drw 1 2 5) ∧
  decodeWord 0b1110010110100001#16 = .instr (.sknp 5) ∧
  decodeWord 0b1111001101010101#16 = .instr (.storeRegs 3) ∧
  decodeWord 0b0101000100100001#16 = .unknown

/-! ## The step -/

/-- One `cycle()` (50_execution_cycle.md section 2): running, the core's turn, and a word at `PC` that decodes, the step is
that instruction run after the pre-advance; then the turn is over (the last two fields are the model's own, log 6). -/
def Obligations.StepRunsTheDecodedInstruction : Prop :=
  ∀ (s t : State) (i : Instr), s.rs = .running → s.turn.agent = .core → decodeWord s.fetch = .instr i →
    exec i { s with pc := s.pc + 2 } = .next t →
    step s = .next { t with turns := t.turns.tail, turnCount := t.turnCount + 1 }

/-- An unknown word halts the machine and does nothing else but the pre-advance (60_exceptions.md sections 1, 4). The
record and the `PC` left are the spec's decision D11 (log 16). -/
def Obligations.UnknownWordHalts : Prop :=
  ∀ s : State, s.rs = .running → s.turn.agent = .core → decodeWord s.fetch = .unknown →
    step s = .next
      { s with
        pc := s.pc + 2
        rs := .halted .unknownOpcode
        fc := { cause := some .unknownOpcode, word := s.fetch, addr := s.pc }
        turns := s.turns.tail
        turnCount := s.turnCount + 1 }

/-- One timer tick (rule R224): both timers, 0 stays 0, nothing else, in `Running` and in `WaitingForKey`. (The last two
fields are the model's own: the turn is over, log 6.) -/
def Obligations.TimerTickCountsBothTimersDown : Prop :=
  ∀ s : State, (∀ c, s.rs ≠ .halted c) → s.turn.agent = .timer →
    ∃ t, step s = .next t ∧ t.dt.toNat = s.dt.toNat - 1 ∧ t.st.toNat = s.st.toNat - 1 ∧
      t = { s with dt := t.dt, st := t.st, turns := s.turns.tail, turnCount := s.turnCount + 1 }

/-- A refresh changes no state of the machine (50_execution_cycle.md section 3); the turn is over (log 6). -/
def Obligations.RefreshChangesNothing : Prop :=
  ∀ s : State, (∀ c, s.rs ≠ .halted c) → s.turn.agent = .refresh →
    step s = .next { s with turns := s.turns.tail, turnCount := s.turnCount + 1 }

/-- One key poll (50_execution_cycle.md section 2; D10, log 15): a release ends the wait, without one nothing changes. -/
def Obligations.KeyPollEndsTheWaitOnARelease : Prop :=
  ∀ (s : State) (x : Nibble), s.rs = .waitingForKey x → s.turn.agent = .core →
    (∀ k, s.turn.krel = some k →
      ∃ t, step s = .next t ∧ t.getV x = k.setWidth 8 ∧ (∀ y, y ≠ x → t.getV y = s.getV y) ∧
        t = { s with v := t.v, pc := s.pc + 2, rs := .running, turns := s.turns.tail, turnCount := s.turnCount + 1 }) ∧
    (s.turn.krel = none → step s = .next { s with turns := s.turns.tail, turnCount := s.turnCount + 1 })

/-- The wait lasts as long as no release is presented, however many turns pass; only the timers move
(44_keypad_timers.md, `FX0A`; D10, log 15). -/
def Obligations.KeyWaitLastsUntilARelease : Prop :=
  ∀ (s : State) (x : Nibble) (ts rest : List Turn), s.rs = .waitingForKey x → s.turns = ts ++ rest →
    (∀ t ∈ ts, t.agent = .core → t.krel = none) →
    ∃ dt st, Sys2Proof.core.run ts.length s =
      .next { s with dt := dt, st := st, turns := rest, turnCount := s.turnCount + ts.length }

/-- From `Halted` no agent has a step; from every other state one step is answered, and no step is ever refused
(50_execution_cycle.md section 7; D14, log 10, log 27). -/
def Obligations.OnlyHaltedHasNoSuccessor : Prop :=
  ∀ s : State,
    ((∃ t, step s = .next t) ↔ ∀ c, s.rs ≠ .halted c) ∧
    (∀ c, step s = .fault (.halted c) ↔ s.rs = .halted c) ∧
    (∀ r, step s ≠ .refused r)

/-- A jump to its own address is a fixed point of the core step (50_execution_cycle.md section 7). -/
def Obligations.SelfJumpParks : Prop :=
  ∀ (s : State) (nnn : Addr12), s.rs = .running → s.turn.agent = .core → decodeWord s.fetch = .instr (.jp nnn) →
    s.pc = nnn.setWidth 16 → step s = .next { s with turns := s.turns.tail, turnCount := s.turnCount + 1 }

/-! ## Display -/

/-- Rule R120. -/
def Obligations.ClsTurnsEveryPixelOff : Prop :=
  encode .cls = 0x00E0#16 ∧
  ∀ s : State, ∃ t, exec .cls s = .next t ∧ (∀ x y, Framebuffer.get t.fb x y = false) ∧ t = { s with fb := t.fb }

/-- `DXYN`, pixel by pixel (40_display.md): a pixel changes exactly where an on-screen sprite bit 1 lies, and `VF` says
whether one went from on to off. (`N = 0` and what clipped pixels do are the spec's decision D17, log 17; the mask of
`I + r` to 12 bits is D1, log 11; that `I` stays is D12, log 13.) -/
def Obligations.DrwTogglesTheSpritePixels : Prop :=
  ∀ (x y n : Nibble) (s : State),
    let x0 := (s.getV x).toNat % 64
    let y0 := (s.getV y).toNat % 32
    let bit := fun (px : Fin 64) (py : Fin 32) =>
      x0 ≤ px.val ∧ px.val < x0 + 8 ∧ y0 ≤ py.val ∧ py.val < y0 + n.toNat ∧
        (s.mem.cell ((s.i.toNat + (py.val - y0)) % 4096)).getLsbD (7 - (px.val - x0)) = true
    ∃ t, exec (.drw x y n) s = .next t ∧
      (∀ px py, bit px py → Framebuffer.get t.fb px py = !Framebuffer.get s.fb px py) ∧
      (∀ px py, ¬bit px py → Framebuffer.get t.fb px py = Framebuffer.get s.fb px py) ∧
      ((∃ px py, Framebuffer.get s.fb px py = true ∧ Framebuffer.get t.fb px py = false) → t.getV 0xF#4 = 0x01#8) ∧
      ((¬∃ px py, Framebuffer.get s.fb px py = true ∧ Framebuffer.get t.fb px py = false) → t.getV 0xF#4 = 0x00#8) ∧
      (∀ k, k ≠ 0xF#4 → t.getV k = s.getV k) ∧ t = { s with v := t.v, fb := t.fb }

/-- The same sprite drawn twice at the same place restores the framebuffer, and the second draw sets `VF` exactly when the
first turned a pixel on (40_display.md, `DXYN` corner case 8, which the spec derives). For `X` and `Y` other than `0xF`:
there the first draw changes the coordinate that the second reads. -/
def Obligations.DrawingTwiceRestoresTheFramebuffer : Prop :=
  ∀ (x y n : Nibble) (s : State), x ≠ 0xF#4 → y ≠ 0xF#4 →
    ∃ t u, exec (.drw x y n) s = .next t ∧ exec (.drw x y n) t = .next u ∧ u.fb = s.fb ∧
      (u.getV 0xF#4 = 0x01#8 ↔ ∃ px py, Framebuffer.get s.fb px py = false ∧ Framebuffer.get t.fb px py = true)

/-! ## Control transfer -/

/-- Rule R131. -/
def Obligations.JpSetsThePc : Prop :=
  ∀ (nnn : Addr12) (s : State),
    encode (.jp nnn) = 0x1000#16 ||| nnn.setWidth 16 ∧
    exec (.jp nnn) s = .next { s with pc := nnn.setWidth 16 }

/-- `RET` with `k + 1` live entries pops the top one into `PC`, unmasked (41_flow.md section 2). -/
def Obligations.RetPopsTheReturnAddress : Prop :=
  encode .ret = 0x00EE#16 ∧
  ∀ (s : State) (k : Nat) (h : k < 16), s.sp.val = k + 1 →
    exec .ret s = .next { s with sp := ⟨k, by omega⟩, pc := s.stk[k] }

/-- `CALL` with `k < 16` live entries pushes `A + 2`, unmasked, and jumps (41_flow.md section 2). -/
def Obligations.CallPushesTheReturnAddress : Prop :=
  ∀ (nnn : Addr12) (s : State),
    encode (.call nnn) = 0x2000#16 ||| nnn.setWidth 16 ∧
    ∀ (k : Nat) (h : k < 16), s.sp.val = k →
      exec (.call nnn) s = .next { s with stk := s.stk.set k s.pc, sp := ⟨k + 1, by omega⟩, pc := nnn.setWidth 16 }

/-- The two stack faults (60_exceptions.md section 1): nothing is pushed or popped, `PC` keeps `A + 2`. The record and the
`PC` left are the spec's decision D11 (log 16). -/
def Obligations.StackFaultsHaltWithoutEffect : Prop :=
  ∀ s : State,
    (s.sp.val = 0 → exec .ret s = .next
      { s with
        rs := .halted .stackUnderflow
        fc := { cause := some .stackUnderflow, word := 0x00EE#16, addr := s.pc - 2 } }) ∧
    (∀ nnn : Addr12, s.sp.val = 16 → exec (.call nnn) s = .next
      { s with
        rs := .halted .stackOverflow
        fc := { cause := some .stackOverflow, word := 0x2000#16 ||| nnn.setWidth 16, addr := s.pc - 2 } })

/-- A call, then a return from wherever the subroutine ended: `PC` is the address after the call and the live part of the
stack is as before (41_flow.md, `00EE` corner cases). -/
def Obligations.CallThenRetRestoresThePc : Prop :=
  ∀ (nnn : Addr12) (s : State) (p : Word), s.sp.val < 16 →
    ∃ t u, exec (.call nnn) s = .next t ∧ exec .ret { t with pc := p } = .next u ∧ u.pc = s.pc ∧ u.sp = s.sp ∧
      (∀ (k : Nat) (h : k < s.sp.val), u.stk[k] = s.stk[k]) ∧ u = { s with stk := u.stk }

/-- The two immediate skips (rules R133, R134): a taken skip adds 2 to the pre-advanced `PC`, nothing else changes. (That
the sum is modulo 65536 is the spec's decision D2, log 20.) -/
def Obligations.ImmediateSkipsCompareVxWithNn : Prop :=
  ∀ (x : Nibble) (nn : Byte) (s : State),
    encode (.seImm x nn) = 0x3000#16 ||| x.setWidth 16 <<< 8 ||| nn.setWidth 16 ∧
    encode (.sneImm x nn) = 0x4000#16 ||| x.setWidth 16 <<< 8 ||| nn.setWidth 16 ∧
    exec (.seImm x nn) s = .next { s with pc := if s.getV x = nn then s.pc + 2 else s.pc } ∧
    exec (.sneImm x nn) s = .next { s with pc := if s.getV x = nn then s.pc else s.pc + 2 }

/-- The two register skips (rules R135, R136); modulo 65536 is D2, log 20. -/
def Obligations.RegisterSkipsCompareVxWithVy : Prop :=
  ∀ (x y : Nibble) (s : State),
    encode (.seReg x y) = 0x5000#16 ||| x.setWidth 16 <<< 8 ||| y.setWidth 16 <<< 4 ∧
    encode (.sneReg x y) = 0x9000#16 ||| x.setWidth 16 <<< 8 ||| y.setWidth 16 <<< 4 ∧
    exec (.seReg x y) s = .next { s with pc := if s.getV x = s.getV y then s.pc + 2 else s.pc } ∧
    exec (.sneReg x y) s = .next { s with pc := if s.getV x = s.getV y then s.pc else s.pc + 2 }

/-- Rule R137: the sum is neither wrapped nor masked. -/
def Obligations.JpV0AddsV0WithoutAMask : Prop :=
  ∀ (nnn : Addr12) (s : State),
    encode (.jpV0 nnn) = 0xB000#16 ||| nnn.setWidth 16 ∧
    ∃ t, exec (.jpV0 nnn) s = .next t ∧ t.pc.toNat = (s.getV 0x0#4).toNat + nnn.toNat ∧ t.pc.toNat ≤ 0x10FE ∧
      t = { s with pc := t.pc }

/-! ## Load, arithmetic, logic, shift, random -/

/-- Rules R150, R152: the two register loads. -/
def Obligations.RegisterLoadsWriteVx : Prop :=
  ∀ (x y : Nibble) (nn : Byte) (s : State),
    encode (.ldImm x nn) = 0x6000#16 ||| x.setWidth 16 <<< 8 ||| nn.setWidth 16 ∧
    encode (.ldReg x y) = 0x8000#16 ||| x.setWidth 16 <<< 8 ||| y.setWidth 16 <<< 4 ∧
    (∃ t, exec (.ldImm x nn) s = .next t ∧ OnlyRegister s t x nn) ∧
    (∃ t, exec (.ldReg x y) s = .next t ∧ OnlyRegister s t x (s.getV y))

/-- Rule R151: the sum wraps at 256 and no flag is written. -/
def Obligations.AddImmediateWrapsWithoutAFlag : Prop :=
  ∀ (x : Nibble) (nn : Byte) (s : State),
    encode (.addImm x nn) = 0x7000#16 ||| x.setWidth 16 <<< 8 ||| nn.setWidth 16 ∧
    ∃ t b, exec (.addImm x nn) s = .next t ∧ OnlyRegister s t x b ∧
      b.toNat = ((s.getV x).toNat + nn.toNat) % 256

/-- The logic operations, bit by bit; `VF` is not written unless it is `V[X]` (42_alu.md section 2; that no flag is
written is the spec's decision D7, log 13). -/
def Obligations.LogicOperationsAreBitwise : Prop :=
  ∀ (x y : Nibble) (s : State),
    (∃ t b, exec (.or x y) s = .next t ∧ OnlyRegister s t x b ∧
      ∀ k, b.getLsbD k = ((s.getV x).getLsbD k || (s.getV y).getLsbD k)) ∧
    (∃ t b, exec (.and x y) s = .next t ∧ OnlyRegister s t x b ∧
      ∀ k, b.getLsbD k = ((s.getV x).getLsbD k && (s.getV y).getLsbD k)) ∧
    (∃ t b, exec (.xor x y) s = .next t ∧ OnlyRegister s t x b ∧
      ∀ k, b.getLsbD k = ((s.getV x).getLsbD k ^^ (s.getV y).getLsbD k))

/-- `ADD`, `SUB`, `SUBN` on registers (42_alu.md): both operands are read first, `VF` ends as the flag also when
`X = 0xF` (that order is the spec's decision D6, log 12), and `V[X]` holds the result when `X` is not `0xF`. -/
def Obligations.AddAndSubtractSetVfLast : Prop :=
  ∀ (x y : Nibble) (s : State),
    let a := (s.getV x).toNat
    let b := (s.getV y).toNat
    (∃ t, exec (.addReg x y) s = .next t ∧ t.getV 0xF#4 = (if 255 < a + b then 0x01#8 else 0x00#8) ∧
      (x ≠ 0xF#4 → (t.getV x).toNat = (a + b) % 256) ∧
      (∀ k, k ≠ x → k ≠ 0xF#4 → t.getV k = s.getV k) ∧ t = { s with v := t.v }) ∧
    (∃ t, exec (.sub x y) s = .next t ∧ t.getV 0xF#4 = (if b ≤ a then 0x01#8 else 0x00#8) ∧
      (x ≠ 0xF#4 → (t.getV x).toNat = if b ≤ a then a - b else a + 256 - b) ∧
      (∀ k, k ≠ x → k ≠ 0xF#4 → t.getV k = s.getV k) ∧ t = { s with v := t.v }) ∧
    (∃ t, exec (.subn x y) s = .next t ∧ t.getV 0xF#4 = (if a ≤ b then 0x01#8 else 0x00#8) ∧
      (x ≠ 0xF#4 → (t.getV x).toNat = if a ≤ b then b - a else b + 256 - a) ∧
      (∀ k, k ≠ x → k ≠ 0xF#4 → t.getV k = s.getV k) ∧ t = { s with v := t.v })

/-- `SHR`, `SHL` (42_alu.md): the source is `V[Y]`, read first; `V[X]` ends as the shifted value also when `X = 0xF` (that
order is the spec's decision D6, log 12), and `VF` holds the bit shifted out when `X` is not `0xF`. -/
def Obligations.ShiftsReadVyAndSetVfFirst : Prop :=
  ∀ (x y : Nibble) (s : State),
    let b := (s.getV y).toNat
    (∃ t, exec (.shr x y) s = .next t ∧ (t.getV x).toNat = b / 2 ∧
      (x ≠ 0xF#4 → (t.getV 0xF#4).toNat = b % 2) ∧
      (∀ k, k ≠ x → k ≠ 0xF#4 → t.getV k = s.getV k) ∧ t = { s with v := t.v }) ∧
    (∃ t, exec (.shl x y) s = .next t ∧ (t.getV x).toNat = 2 * b % 256 ∧
      (x ≠ 0xF#4 → (t.getV 0xF#4).toNat = b / 128) ∧
      (∀ k, k ≠ x → k ≠ 0xF#4 → t.getV k = s.getV k) ∧ t = { s with v := t.v })

/-- `RND` (42_alu.md): the random byte of this turn under the mask, whatever byte that is (D9, log 7); every bit where
`NN` has a 0 is 0, so the result is at most `NN`. -/
def Obligations.RndMasksTheRandomByte : Prop :=
  ∀ (x : Nibble) (nn : Byte) (s : State),
    ∃ t b, exec (.rnd x nn) s = .next t ∧ OnlyRegister s t x b ∧
      (∀ k, b.getLsbD k = (s.turn.rand.getLsbD k && nn.getLsbD k)) ∧ b.toNat ≤ nn.toNat

/-! ## Index register and memory -/

/-- Rules R180, R182: `I` from an address, and from the low nibble of a register, five bytes a glyph. -/
def Obligations.IndexLoadsSetI : Prop :=
  ∀ (nnn : Addr12) (x : Nibble) (s : State),
    encode (.ldI nnn) = 0xA000#16 ||| nnn.setWidth 16 ∧
    encode (.ldF x) = 0xF029#16 ||| x.setWidth 16 <<< 8 ∧
    exec (.ldI nnn) s = .next { s with i := nnn.setWidth 16 } ∧
    (∃ t, exec (.ldF x) s = .next t ∧ t.i.toNat = (s.getV x).toNat % 16 * 5 ∧ t = { s with i := t.i })

/-- `FX1E` adds into 12 bits and writes no flag (43_index_memory.md; that `VF` is not written is the spec's decision D23,
log 13). -/
def Obligations.AddToIndexIsMaskedWithoutAFlag : Prop :=
  ∀ (x : Nibble) (s : State),
    ∃ t, exec (.addI x) s = .next t ∧ t.i.toNat = (s.i.toNat + (s.getV x).toNat) % 4096 ∧ t = { s with i := t.i }

/-- `FX33` stores the three decimal digits at `I`, `I + 1`, `I + 2`, masked, and nothing else (43_index_memory.md; the
mask is the spec's decision D1, log 11). -/
def Obligations.DecimalDigitsAreStoredAtI : Prop :=
  ∀ (x : Nibble) (s : State),
    ∃ t, exec (.ldB x) s = .next t ∧
      (t.mem.read (dataAddr s.i 0)).toNat = (s.getV x).toNat / 100 ∧
      (t.mem.read (dataAddr s.i 1)).toNat = (s.getV x).toNat / 10 % 10 ∧
      (t.mem.read (dataAddr s.i 2)).toNat = (s.getV x).toNat % 10 ∧
      (∀ a, (∀ r, r < 3 → busAddr a ≠ busAddr (dataAddr s.i r)) → t.mem.read a = s.mem.read a) ∧
      t = { s with mem := t.mem }

/-- `FX55` stores `V0` to `VX` from `I` up, masked, and nothing else; `I` stays (43_index_memory.md; D1, log 11, and D12,
log 13). -/
def Obligations.StoreRegistersWritesV0ToVx : Prop :=
  ∀ (x : Nibble) (s : State),
    ∃ t, exec (.storeRegs x) s = .next t ∧
      (∀ k : Nibble, k.toNat ≤ x.toNat → t.mem.read (dataAddr s.i k.toNat) = s.getV k) ∧
      (∀ a, (∀ r, r ≤ x.toNat → busAddr a ≠ busAddr (dataAddr s.i r)) → t.mem.read a = s.mem.read a) ∧
      t = { s with mem := t.mem }

/-- `FX65` loads `V0` to `VX` from `I` up, masked; the other registers and `I` stay (43_index_memory.md; D1, log 11, and
D12, log 13). -/
def Obligations.LoadRegistersReadsV0ToVx : Prop :=
  ∀ (x : Nibble) (s : State),
    ∃ t, exec (.loadRegs x) s = .next t ∧
      (∀ k : Nibble, k.toNat ≤ x.toNat → t.getV k = s.mem.cell ((s.i.toNat + k.toNat) % 4096)) ∧
      (∀ k : Nibble, x.toNat < k.toNat → t.getV k = s.getV k) ∧ t = { s with v := t.v }

/-! ## Keypad and timers -/

/-- The key skips test the level of the key that the low nibble of `V[X]` selects, and exactly one of the two skips
(44_keypad_timers.md; the low nibble is the spec's decision D8, log 14). -/
def Obligations.KeySkipsTestTheKeyLevel : Prop :=
  ∀ (x : Nibble) (s : State),
    exec (.skp x) s =
      .next { s with pc := if s.turn.keys.getLsbD ((s.getV x).toNat % 16) then s.pc + 2 else s.pc } ∧
    exec (.sknp x) s =
      .next { s with pc := if s.turn.keys.getLsbD ((s.getV x).toNat % 16) then s.pc else s.pc + 2 }

/-- The three moves between a register and a timer (rules R202, R204, R205), and the tone that follows `ST` (that the tone
is the level `ST != 0` is the spec's decision D16, log 22). -/
def Obligations.TimerMovesCopyWholeBytes : Prop :=
  ∀ (x : Nibble) (s : State),
    encode (.ldVxDT x) = 0xF007#16 ||| x.setWidth 16 <<< 8 ∧
    encode (.ldDTVx x) = 0xF015#16 ||| x.setWidth 16 <<< 8 ∧
    encode (.ldSTVx x) = 0xF018#16 ||| x.setWidth 16 <<< 8 ∧
    (∃ t, exec (.ldVxDT x) s = .next t ∧ OnlyRegister s t x s.dt) ∧
    exec (.ldDTVx x) s = .next { s with dt := s.getV x } ∧
    exec (.ldSTVx x) s = .next { s with st := s.getV x } ∧
    State.tone { s with st := s.getV x } = decide (s.getV x ≠ 0x00#8)

/-- `FX0A` puts `PC` back to its own address and begins the wait, with the register latched (44_keypad_timers.md; that
this step does not look at `KREL` is the spec's decision D10, log 15). -/
def Obligations.WaitForKeyPutsThePcBack : Prop :=
  ∀ (x : Nibble) (s : State), exec (.ldVxK x) s = .next { s with pc := s.pc - 2, rs := .waitingForKey x }

/-! ## Frames over all instructions -/

/-- Every byte of memory reads as before, for every instruction but `FX33` and `FX55`. -/
def Obligations.OnlyTheStoresChangeMemory : Prop :=
  ∀ (i : Instr) (s t : State), exec i s = .next t → (∀ x, i ≠ .ldB x) → (∀ x, i ≠ .storeRegs x) →
    ∀ a, t.mem.read a = s.mem.read a

/-- A register changes only where the table of 10_state.md section 1 has the instruction write it (D7, log 13). -/
def Obligations.RegistersChangeOnlyWhereTheTableSays : Prop :=
  ∀ (i : Instr) (s t : State), exec i s = .next t → ∀ k, ¬MayWriteV i k → t.getV k = s.getV k

/-- `I`, `DT`, `ST`, `FB`, the stack, `FC`, `RS` and `PC` change only by the instructions that name them
(10_state.md; D7, log 13); no instruction touches the turns of the outside world. -/
def Obligations.SystemStateChangesOnlyByItsInstructions : Prop :=
  ∀ (i : Instr) (s t : State), exec i s = .next t →
    ((∀ a, i ≠ .ldI a) → (∀ x, i ≠ .addI x) → (∀ x, i ≠ .ldF x) → t.i = s.i) ∧
    ((∀ x, i ≠ .ldDTVx x) → t.dt = s.dt) ∧
    ((∀ x, i ≠ .ldSTVx x) → t.st = s.st) ∧
    (i ≠ .cls → (∀ x y n, i ≠ .drw x y n) → t.fb = s.fb) ∧
    (i ≠ .ret → (∀ a, i ≠ .call a) → t.sp = s.sp ∧ t.stk = s.stk ∧ t.fc = s.fc) ∧
    (i ≠ .ret → (∀ a, i ≠ .call a) → (∀ x, i ≠ .ldVxK x) → t.rs = s.rs) ∧
    (i ≠ .ret → (∀ a, i ≠ .call a) → (∀ x, i ≠ .ldVxK x) → (∀ a, i ≠ .jp a) → (∀ a, i ≠ .jpV0 a) →
      (∀ x nn, i ≠ .seImm x nn) → (∀ x nn, i ≠ .sneImm x nn) → (∀ x y, i ≠ .seReg x y) → (∀ x y, i ≠ .sneReg x y) →
      (∀ x, i ≠ .skp x) → (∀ x, i ≠ .sknp x) → t.pc = s.pc) ∧
    t.turns = s.turns ∧ t.turnCount = s.turnCount

/-! ## Whole-machine rules -/

/-- The invariant, and the wait's, hold after reset. (The canonical form of memory is the model's own representation,
log 4; `I` is 0 at reset by the spec's decision D4, log 1; the fault record is D11, log 16.) -/
def Obligations.ResetMeetsTheInvariants : Prop :=
  State.reset.Inv ∧ State.reset.WaitsAtInstr

/-- Every step keeps the invariant. `I` below 4096 is of 10_state.md section 13 (rule R40); `FC` and `RS` saying the same is
of section 7 (rule R31), a record that is the spec's decision D11 (log 16); `OutOfBounds` never raised is D1 (log 11);
the memory's canonical form is the model's own representation (log 4), no rule of the spec. -/
def Obligations.EveryStepKeepsTheInvariant : Prop :=
  ∀ s t : State, s.Inv → step s = .next t → t.Inv

/-- Every step keeps `PC` at the `FX0A` while the machine waits, so fetching it again would change nothing
(44_keypad_timers.md, `FX0A` corner case 5; D26, log 15). -/
def Obligations.EveryStepKeepsTheWaitAtItsInstruction : Prop :=
  ∀ s t : State, s.WaitsAtInstr → step s = .next t → t.WaitsAtInstr

/-- The run state starts as `Running` and changes exactly as the table of 10_state.md section 7 says (rule R30): which
step begins the wait, which ends it, which halts, and none leaves `Halted`. (When a fault is raised: 60_exceptions.md
section 1. That no agent, the timer and the refresh included, has a step in `Halted`: D14, log 27. That `OutOfBounds` is
never a cause: D1, log 11. That the wait's register is latched and no release is kept: D10, D26, log 15.) -/
def Obligations.RunStateChangesInThreeWays : Prop :=
  State.reset.rs = .running ∧
  ∀ s t : State, step s = .next t →
    (∀ c, s.rs ≠ .halted c) ∧
    (∀ x, s.rs = .waitingForKey x →
      ((s.turn.agent = .core ∧ ∃ k, s.turn.krel = some k) → t.rs = .running) ∧
      (¬(s.turn.agent = .core ∧ ∃ k, s.turn.krel = some k) → t.rs = .waitingForKey x)) ∧
    (s.rs = .running →
      (∀ x, t.rs = .waitingForKey x ↔ s.turn.agent = .core ∧ decodeWord s.fetch = .instr (.ldVxK x)) ∧
      (∀ c, t.rs = .halted c ↔ s.turn.agent = .core ∧
        ((c = .unknownOpcode ∧ decodeWord s.fetch = .unknown) ∨
         (c = .stackOverflow ∧ (∃ nnn, decodeWord s.fetch = .instr (.call nnn)) ∧ s.sp.val = 16) ∨
         (c = .stackUnderflow ∧ decodeWord s.fetch = .instr .ret ∧ s.sp.val = 0))))

/-- The step that halts the machine has the cause the table of 60_exceptions.md section 1 gives, records the word and its
address, leaves `A + 2` in `PC`, and changes nothing else (60_exceptions.md section 4; D11, log 16). (That the cause is never
`OutOfBounds` is the spec's decision D1, log 11.) -/
def Obligations.AFaultHasItsCauseAndChangesNothingElse : Prop :=
  ∀ (s t : State) (c : Cause), step s = .next t → s.rs = .running → t.rs = .halted c →
    (match c with
      | .unknownOpcode => decodeWord s.fetch = .unknown
      | .stackOverflow => (∃ nnn, decodeWord s.fetch = .instr (.call nnn)) ∧ s.sp.val = 16
      | .stackUnderflow => decodeWord s.fetch = .instr .ret ∧ s.sp.val = 0
      | .outOfBounds => False) ∧
    t = { s with
          pc := s.pc + 2
          rs := .halted c
          fc := { cause := some c, word := s.fetch, addr := s.pc }
          turns := s.turns.tail
          turnCount := s.turnCount + 1 }

/-- Only `CXNN`, `EX9E`, `EXA1` read an input at their own step: every other instruction does the same whatever the
outside world presents (70_reset_and_hazards.md section 3, which the spec derives; log 7). -/
def Obligations.OnlyThreeInstructionsReadAnInput : Prop :=
  ∀ (i : Instr) (s : State) (ts : List Turn) (n : Nat),
    (∀ x nn, i ≠ .rnd x nn) → (∀ x, i ≠ .skp x) → (∀ x, i ≠ .sknp x) →
    exec i { s with turns := ts, turnCount := n } =
      mapNext (fun t => { t with turns := ts, turnCount := n }) (exec i s)

/-- A timer tick before an instruction or after it is the same, for every instruction that does not name a timer
(70_reset_and_hazards.md section 3, 50_execution_cycle.md section 4). -/
def Obligations.TimerTicksCommuteWithOtherInstructions : Prop :=
  ∀ (i : Instr) (s : State), (∀ x, i ≠ .ldVxDT x) → (∀ x, i ≠ .ldDTVx x) → (∀ x, i ≠ .ldSTVx x) →
    exec i (timerTick s) = mapNext timerTick (exec i s)

/-- The edges of `tone` (50_execution_cycle.md section 5; D16, log 22): it rises only when `FX18` writes a non-zero value,
and falls only at a tick from 1 or when `FX18` writes zero. -/
def Obligations.ToneEdgesAreFx18OrTheLastTick : Prop :=
  ∀ s t : State, step s = .next t →
    (s.tone = false → t.tone = true →
      s.rs = .running ∧ s.turn.agent = .core ∧ ∃ x, decodeWord s.fetch = .instr (.ldSTVx x) ∧ s.getV x ≠ 0x00#8) ∧
    (s.tone = true → t.tone = false →
      (s.turn.agent = .timer ∧ s.st = 0x01#8) ∨
      (s.rs = .running ∧ s.turn.agent = .core ∧ ∃ x, decodeWord s.fetch = .instr (.ldSTVx x) ∧ s.getV x = 0x00#8))

/-- The framebuffer port is row-major: pixel `(x, y)` at index `y * 64 + x` (50_execution_cycle.md section 5; D15, D18,
log 22). -/
def Obligations.FramebufferPortIsRowMajor : Prop :=
  ∀ (s : State) (x : Fin 64) (y : Fin 32), s.fbPort[y.val * 64 + x.val] = Framebuffer.get s.fb x y
end

