-- ==== Sys2Proof/Laws/Decode.lean ====
section
/-! SUPPORT. Each format as a number and the fields read back from it (rules R7, R91, R92), and the two bytes of a word
(rule R65). -/

namespace Sys2Proof

/-- A concatenation as a number. -/
theorem toNat_append_eq {n m : Nat} (a : BitVec n) (b : BitVec m) : (a ++ b).toNat = a.toNat * 2 ^ m + b.toNat := by
  rw [BitVec.toNat_append, ← Nat.shiftLeft_add_eq_or_of_lt b.isLt, Nat.shiftLeft_eq]

theorem toNat_formatA (op : Nibble) (nnn : Addr12) : (formatA op nnn).toNat = op.toNat * 4096 + nnn.toNat :=
  toNat_append_eq op nnn

theorem toNat_formatI (op x : Nibble) (nn : Byte) :
    (formatI op x nn).toNat = op.toNat * 4096 + x.toNat * 256 + nn.toNat := by
  have h1 : (formatI op x nn).toNat = (op ++ x).toNat * 2 ^ 8 + nn.toNat := toNat_append_eq (op ++ x) nn
  have h2 : (op ++ x).toNat = op.toNat * 2 ^ 4 + x.toNat := toNat_append_eq op x
  rw [h1, h2]
  ring

theorem toNat_formatD (op x y n : Nibble) :
    (formatD op x y n).toNat = op.toNat * 4096 + x.toNat * 256 + y.toNat * 16 + n.toNat := by
  have h1 : (formatD op x y n).toNat = (op ++ x ++ y).toNat * 2 ^ 4 + n.toNat := toNat_append_eq (op ++ x ++ y) n
  have h2 : (op ++ x ++ y).toNat = (op ++ x).toNat * 2 ^ 4 + y.toNat := toNat_append_eq (op ++ x) y
  have h3 : (op ++ x).toNat = op.toNat * 2 ^ 4 + x.toNat := toNat_append_eq op x
  rw [h1, h2, h3]
  ring

/-! The fields of a word as numbers. -/

theorem toNat_opOf (w : Word) : (opOf w).toNat = w.toNat / 4096 := by
  have := w.isLt
  simp only [opOf, BitVec.extractLsb'_toNat, Nat.shiftRight_eq_div_pow]
  omega

theorem toNat_xOf (w : Word) : (xOf w).toNat = w.toNat / 256 % 16 := by
  simp only [xOf, BitVec.extractLsb'_toNat, Nat.shiftRight_eq_div_pow]

theorem toNat_yOf (w : Word) : (yOf w).toNat = w.toNat / 16 % 16 := by
  simp only [yOf, BitVec.extractLsb'_toNat, Nat.shiftRight_eq_div_pow]

theorem toNat_nOf (w : Word) : (nOf w).toNat = w.toNat % 16 := by
  simp only [nOf, BitVec.extractLsb'_toNat, Nat.shiftRight_zero]

theorem toNat_nnOf (w : Word) : (nnOf w).toNat = w.toNat % 256 := by
  simp only [nnOf, BitVec.extractLsb'_toNat, Nat.shiftRight_zero]

theorem toNat_nnnOf (w : Word) : (nnnOf w).toNat = w.toNat % 4096 := by
  simp only [nnnOf, BitVec.extractLsb'_toNat, Nat.shiftRight_zero]

theorem toNat_highByte (w : Word) : (highByte w).toNat = w.toNat / 256 := by
  have := w.isLt
  simp only [highByte, BitVec.extractLsb'_toNat, Nat.shiftRight_eq_div_pow]
  omega

theorem toNat_lowByte (w : Word) : (lowByte w).toNat = w.toNat % 256 := by
  simp only [lowByte, BitVec.extractLsb'_toNat, Nat.shiftRight_zero]

/-! The fields are read back from each format. -/

theorem opOf_formatA (op : Nibble) (nnn : Addr12) : opOf (formatA op nnn) = op := by
  have := nnn.isLt
  apply BitVec.eq_of_toNat_eq
  rw [toNat_opOf, toNat_formatA]
  omega

theorem nnnOf_formatA (op : Nibble) (nnn : Addr12) : nnnOf (formatA op nnn) = nnn := by
  have := nnn.isLt
  apply BitVec.eq_of_toNat_eq
  rw [toNat_nnnOf, toNat_formatA]
  omega

theorem opOf_formatI (op x : Nibble) (nn : Byte) : opOf (formatI op x nn) = op := by
  have := nn.isLt
  have := x.isLt
  apply BitVec.eq_of_toNat_eq
  rw [toNat_opOf, toNat_formatI]
  omega

theorem xOf_formatI (op x : Nibble) (nn : Byte) : xOf (formatI op x nn) = x := by
  have := nn.isLt
  have := x.isLt
  apply BitVec.eq_of_toNat_eq
  rw [toNat_xOf, toNat_formatI]
  omega

theorem nnOf_formatI (op x : Nibble) (nn : Byte) : nnOf (formatI op x nn) = nn := by
  have := nn.isLt
  apply BitVec.eq_of_toNat_eq
  rw [toNat_nnOf, toNat_formatI]
  omega

theorem opOf_formatD (op x y n : Nibble) : opOf (formatD op x y n) = op := by
  have := n.isLt
  have := y.isLt
  have := x.isLt
  apply BitVec.eq_of_toNat_eq
  rw [toNat_opOf, toNat_formatD]
  omega

theorem xOf_formatD (op x y n : Nibble) : xOf (formatD op x y n) = x := by
  have := n.isLt
  have := y.isLt
  have := x.isLt
  apply BitVec.eq_of_toNat_eq
  rw [toNat_xOf, toNat_formatD]
  omega

theorem yOf_formatD (op x y n : Nibble) : yOf (formatD op x y n) = y := by
  have := n.isLt
  have := y.isLt
  apply BitVec.eq_of_toNat_eq
  rw [toNat_yOf, toNat_formatD]
  omega

theorem nOf_formatD (op x y n : Nibble) : nOf (formatD op x y n) = n := by
  have := n.isLt
  apply BitVec.eq_of_toNat_eq
  rw [toNat_nOf, toNat_formatD]
  omega

/-! A word is put together again from its fields. -/

theorem formatA_fields (w : Word) : formatA (opOf w) (nnnOf w) = w := by
  apply BitVec.eq_of_toNat_eq
  rw [toNat_formatA, toNat_opOf, toNat_nnnOf]
  omega

theorem formatI_fields (w : Word) : formatI (opOf w) (xOf w) (nnOf w) = w := by
  apply BitVec.eq_of_toNat_eq
  rw [toNat_formatI, toNat_opOf, toNat_xOf, toNat_nnOf]
  omega

theorem formatD_fields (w : Word) : formatD (opOf w) (xOf w) (yOf w) (nOf w) = w := by
  apply BitVec.eq_of_toNat_eq
  rw [toNat_formatD, toNat_opOf, toNat_xOf, toNat_yOf, toNat_nOf]
  omega

theorem bytes_of_word (w : Word) : highByte w ++ lowByte w = w := by
  apply BitVec.eq_of_toNat_eq
  rw [toNat_append_eq, toNat_highByte, toNat_lowByte]
  omega

/-! Each format as the rules write it, `OP << 12 | X << 8 | …`. -/

theorem toNat_setWidth_shift {n : Nat} (b : BitVec n) (k : Nat) (h : b.toNat * 2 ^ k < 65536) :
    (b.setWidth 16 <<< k).toNat = 2 ^ k * b.toNat := by
  have le : b.toNat ≤ b.toNat * 2 ^ k := Nat.le_mul_of_pos_right _ (Nat.two_pow_pos k)
  have low : b.toNat % 2 ^ 16 = b.toNat := Nat.mod_eq_of_lt (by omega)
  rw [BitVec.toNat_shiftLeft, BitVec.toNat_setWidth, low, Nat.shiftLeft_eq, Nat.mod_eq_of_lt h, Nat.mul_comm]

theorem toNat_setWidth_low {n : Nat} (b : BitVec n) (h : n ≤ 16) : (b.setWidth 16).toNat = b.toNat := by
  rw [BitVec.toNat_setWidth, Nat.mod_eq_of_lt (Nat.lt_of_lt_of_le b.isLt (Nat.pow_le_pow_right (by omega) h))]

theorem formatA_eq_or (op : Nibble) (nnn : Addr12) :
    formatA op nnn = op.setWidth 16 <<< 12 ||| nnn.setWidth 16 := by
  have hop := op.isLt
  have hn := nnn.isLt
  apply BitVec.eq_of_toNat_eq
  rw [toNat_formatA, BitVec.toNat_or, toNat_setWidth_shift op 12 (by omega), toNat_setWidth_low nnn (by omega),
    ← Nat.two_pow_add_eq_or_of_lt hn]
  omega

theorem formatI_eq_or (op x : Nibble) (nn : Byte) :
    formatI op x nn = op.setWidth 16 <<< 12 ||| x.setWidth 16 <<< 8 ||| nn.setWidth 16 := by
  have hop := op.isLt
  have hx := x.isLt
  have hn := nn.isLt
  apply BitVec.eq_of_toNat_eq
  rw [toNat_formatI, BitVec.toNat_or, BitVec.toNat_or, toNat_setWidth_shift op 12 (by omega),
    toNat_setWidth_shift x 8 (by omega), toNat_setWidth_low nn (by omega),
    ← Nat.two_pow_add_eq_or_of_lt (show 2 ^ 8 * x.toNat < 2 ^ 12 by omega),
    show 2 ^ 12 * op.toNat + 2 ^ 8 * x.toNat = 2 ^ 8 * (16 * op.toNat + x.toNat) by omega,
    ← Nat.two_pow_add_eq_or_of_lt hn]
  omega

theorem formatD_eq_or (op x y n : Nibble) :
    formatD op x y n = op.setWidth 16 <<< 12 ||| x.setWidth 16 <<< 8 ||| y.setWidth 16 <<< 4 ||| n.setWidth 16 := by
  have hop := op.isLt
  have hx := x.isLt
  have hy := y.isLt
  have hn := n.isLt
  apply BitVec.eq_of_toNat_eq
  rw [toNat_formatD, BitVec.toNat_or, BitVec.toNat_or, BitVec.toNat_or, toNat_setWidth_shift op 12 (by omega),
    toNat_setWidth_shift x 8 (by omega), toNat_setWidth_shift y 4 (by omega), toNat_setWidth_low n (by omega),
    ← Nat.two_pow_add_eq_or_of_lt (show 2 ^ 8 * x.toNat < 2 ^ 12 by omega),
    show 2 ^ 12 * op.toNat + 2 ^ 8 * x.toNat = 2 ^ 8 * (16 * op.toNat + x.toNat) by omega,
    ← Nat.two_pow_add_eq_or_of_lt (show 2 ^ 4 * y.toNat < 2 ^ 8 by omega),
    show 2 ^ 8 * (16 * op.toNat + x.toNat) + 2 ^ 4 * y.toNat = 2 ^ 4 * (256 * op.toNat + 16 * x.toNat + y.toNat) by omega,
    ← Nat.two_pow_add_eq_or_of_lt hn]
  omega

/-! The fixed digits of each format under its mask (rule R94). -/

theorem formatA_mask (op : Nibble) (nnn : Addr12) : formatA op nnn &&& 0xF000#16 = formatA op 0x000#12 := by
  have h : (op ++ nnn : BitVec (4 + 12)) &&& (BitVec.allOnes 4 ++ 0x000#12 : BitVec (4 + 12)) = op ++ 0x000#12 := by
    simp only [BitVec.and_append, BitVec.and_allOnes, BitVec.and_zero]
  exact h

theorem formatI_mask (op x : Nibble) (nn : Byte) : formatI op x nn &&& 0xF0FF#16 = formatI op 0x0#4 nn := by
  have h : (op ++ x ++ nn : BitVec (4 + 4 + 8)) &&& (BitVec.allOnes 4 ++ 0x0#4 ++ BitVec.allOnes 8 : BitVec (4 + 4 + 8)) = op ++ 0x0#4 ++ nn := by
    simp only [BitVec.and_append, BitVec.and_allOnes, BitVec.and_zero]
  exact h

theorem formatI_familyMask (op x : Nibble) (nn : Byte) : formatI op x nn &&& 0xF000#16 = formatI op 0x0#4 0x00#8 := by
  have h : (op ++ x ++ nn : BitVec (4 + 4 + 8)) &&& (BitVec.allOnes 4 ++ 0x0#4 ++ 0x00#8 : BitVec (4 + 4 + 8)) = op ++ 0x0#4 ++ 0x00#8 := by
    simp only [BitVec.and_append, BitVec.and_allOnes, BitVec.and_zero]
  exact h

theorem formatD_mask (op x y n : Nibble) : formatD op x y n &&& 0xF00F#16 = formatD op 0x0#4 0x0#4 n := by
  have h : (op ++ x ++ y ++ n : BitVec (4 + 4 + 4 + 4)) &&& (BitVec.allOnes 4 ++ 0x0#4 ++ 0x0#4 ++ BitVec.allOnes 4 : BitVec (4 + 4 + 4 + 4)) = op ++ 0x0#4 ++ 0x0#4 ++ n := by
    simp only [BitVec.and_append, BitVec.and_allOnes, BitVec.and_zero]
  exact h

theorem formatD_familyMask (op x y n : Nibble) : formatD op x y n &&& 0xF000#16 = formatD op 0x0#4 0x0#4 0x0#4 := by
  have h : (op ++ x ++ y ++ n : BitVec (4 + 4 + 4 + 4)) &&& (BitVec.allOnes 4 ++ 0x0#4 ++ 0x0#4 ++ 0x0#4 : BitVec (4 + 4 + 4 + 4)) = op ++ 0x0#4 ++ 0x0#4 ++ 0x0#4 := by
    simp only [BitVec.and_append, BitVec.and_allOnes, BitVec.and_zero]
  exact h

end Sys2Proof
end

