-- ==== Sys2Proof/Laws/State.lean ====
section
/-! SUPPORT. What each field holds after each update of the state, and how registers read after a write. -/

namespace Sys2Proof.Machine

/-! `State.setV` -/

@[simp] theorem State.setV_v (s : State) (x : Nibble) (b : Byte) : (s.setV x b).v = Registers.put s.v x b := rfl
@[simp] theorem State.setV_i (s : State) (x : Nibble) (b : Byte) : (s.setV x b).i = s.i := rfl
@[simp] theorem State.setV_pc (s : State) (x : Nibble) (b : Byte) : (s.setV x b).pc = s.pc := rfl
@[simp] theorem State.setV_sp (s : State) (x : Nibble) (b : Byte) : (s.setV x b).sp = s.sp := rfl
@[simp] theorem State.setV_stk (s : State) (x : Nibble) (b : Byte) : (s.setV x b).stk = s.stk := rfl
@[simp] theorem State.setV_dt (s : State) (x : Nibble) (b : Byte) : (s.setV x b).dt = s.dt := rfl
@[simp] theorem State.setV_st (s : State) (x : Nibble) (b : Byte) : (s.setV x b).st = s.st := rfl
@[simp] theorem State.setV_rs (s : State) (x : Nibble) (b : Byte) : (s.setV x b).rs = s.rs := rfl
@[simp] theorem State.setV_fc (s : State) (x : Nibble) (b : Byte) : (s.setV x b).fc = s.fc := rfl
@[simp] theorem State.setV_mem (s : State) (x : Nibble) (b : Byte) : (s.setV x b).mem = s.mem := rfl
@[simp] theorem State.setV_fb (s : State) (x : Nibble) (b : Byte) : (s.setV x b).fb = s.fb := rfl
@[simp] theorem State.setV_turns (s : State) (x : Nibble) (b : Byte) : (s.setV x b).turns = s.turns := rfl
@[simp] theorem State.setV_turnCount (s : State) (x : Nibble) (b : Byte) : (s.setV x b).turnCount = s.turnCount := rfl

/-! `State.advance` -/

@[simp] theorem State.advance_v (s : State) : (s.advance).v = s.v := rfl
@[simp] theorem State.advance_i (s : State) : (s.advance).i = s.i := rfl
@[simp] theorem State.advance_pc (s : State) : (s.advance).pc = s.pc + 2 := rfl
@[simp] theorem State.advance_sp (s : State) : (s.advance).sp = s.sp := rfl
@[simp] theorem State.advance_stk (s : State) : (s.advance).stk = s.stk := rfl
@[simp] theorem State.advance_dt (s : State) : (s.advance).dt = s.dt := rfl
@[simp] theorem State.advance_st (s : State) : (s.advance).st = s.st := rfl
@[simp] theorem State.advance_rs (s : State) : (s.advance).rs = s.rs := rfl
@[simp] theorem State.advance_fc (s : State) : (s.advance).fc = s.fc := rfl
@[simp] theorem State.advance_mem (s : State) : (s.advance).mem = s.mem := rfl
@[simp] theorem State.advance_fb (s : State) : (s.advance).fb = s.fb := rfl
@[simp] theorem State.advance_turns (s : State) : (s.advance).turns = s.turns := rfl
@[simp] theorem State.advance_turnCount (s : State) : (s.advance).turnCount = s.turnCount := rfl

/-! `State.push` -/

@[simp] theorem State.push_v (s : State) (a : Word) (room : s.sp.val < 16) : (s.push a room).v = s.v := rfl
@[simp] theorem State.push_i (s : State) (a : Word) (room : s.sp.val < 16) : (s.push a room).i = s.i := rfl
@[simp] theorem State.push_pc (s : State) (a : Word) (room : s.sp.val < 16) : (s.push a room).pc = s.pc := rfl
@[simp] theorem State.push_sp (s : State) (a : Word) (room : s.sp.val < 16) : (s.push a room).sp = ⟨s.sp.val + 1, by omega⟩ := rfl
@[simp] theorem State.push_stk (s : State) (a : Word) (room : s.sp.val < 16) : (s.push a room).stk = s.stk.set s.sp.val a room := rfl
@[simp] theorem State.push_dt (s : State) (a : Word) (room : s.sp.val < 16) : (s.push a room).dt = s.dt := rfl
@[simp] theorem State.push_st (s : State) (a : Word) (room : s.sp.val < 16) : (s.push a room).st = s.st := rfl
@[simp] theorem State.push_rs (s : State) (a : Word) (room : s.sp.val < 16) : (s.push a room).rs = s.rs := rfl
@[simp] theorem State.push_fc (s : State) (a : Word) (room : s.sp.val < 16) : (s.push a room).fc = s.fc := rfl
@[simp] theorem State.push_mem (s : State) (a : Word) (room : s.sp.val < 16) : (s.push a room).mem = s.mem := rfl
@[simp] theorem State.push_fb (s : State) (a : Word) (room : s.sp.val < 16) : (s.push a room).fb = s.fb := rfl
@[simp] theorem State.push_turns (s : State) (a : Word) (room : s.sp.val < 16) : (s.push a room).turns = s.turns := rfl
@[simp] theorem State.push_turnCount (s : State) (a : Word) (room : s.sp.val < 16) : (s.push a room).turnCount = s.turnCount := rfl

/-! `State.drop` -/

@[simp] theorem State.drop_v (s : State) : (s.drop).v = s.v := rfl
@[simp] theorem State.drop_i (s : State) : (s.drop).i = s.i := rfl
@[simp] theorem State.drop_pc (s : State) : (s.drop).pc = s.pc := rfl
@[simp] theorem State.drop_sp (s : State) : (s.drop).sp = ⟨s.sp.val - 1, by omega⟩ := rfl
@[simp] theorem State.drop_stk (s : State) : (s.drop).stk = s.stk := rfl
@[simp] theorem State.drop_dt (s : State) : (s.drop).dt = s.dt := rfl
@[simp] theorem State.drop_st (s : State) : (s.drop).st = s.st := rfl
@[simp] theorem State.drop_rs (s : State) : (s.drop).rs = s.rs := rfl
@[simp] theorem State.drop_fc (s : State) : (s.drop).fc = s.fc := rfl
@[simp] theorem State.drop_mem (s : State) : (s.drop).mem = s.mem := rfl
@[simp] theorem State.drop_fb (s : State) : (s.drop).fb = s.fb := rfl
@[simp] theorem State.drop_turns (s : State) : (s.drop).turns = s.turns := rfl
@[simp] theorem State.drop_turnCount (s : State) : (s.drop).turnCount = s.turnCount := rfl

/-! `State.raise` -/

@[simp] theorem State.raise_v (s : State) (c : Cause) (w : Word) : (s.raise c w).v = s.v := rfl
@[simp] theorem State.raise_i (s : State) (c : Cause) (w : Word) : (s.raise c w).i = s.i := rfl
@[simp] theorem State.raise_pc (s : State) (c : Cause) (w : Word) : (s.raise c w).pc = s.pc := rfl
@[simp] theorem State.raise_sp (s : State) (c : Cause) (w : Word) : (s.raise c w).sp = s.sp := rfl
@[simp] theorem State.raise_stk (s : State) (c : Cause) (w : Word) : (s.raise c w).stk = s.stk := rfl
@[simp] theorem State.raise_dt (s : State) (c : Cause) (w : Word) : (s.raise c w).dt = s.dt := rfl
@[simp] theorem State.raise_st (s : State) (c : Cause) (w : Word) : (s.raise c w).st = s.st := rfl
@[simp] theorem State.raise_rs (s : State) (c : Cause) (w : Word) : (s.raise c w).rs = .halted c := rfl
@[simp] theorem State.raise_fc (s : State) (c : Cause) (w : Word) : (s.raise c w).fc = { cause := some c, word := w, addr := s.instrAddr } := rfl
@[simp] theorem State.raise_mem (s : State) (c : Cause) (w : Word) : (s.raise c w).mem = s.mem := rfl
@[simp] theorem State.raise_fb (s : State) (c : Cause) (w : Word) : (s.raise c w).fb = s.fb := rfl
@[simp] theorem State.raise_turns (s : State) (c : Cause) (w : Word) : (s.raise c w).turns = s.turns := rfl
@[simp] theorem State.raise_turnCount (s : State) (c : Cause) (w : Word) : (s.raise c w).turnCount = s.turnCount := rfl

/-! `State.endTurn` -/

@[simp] theorem State.endTurn_v (s : State) : (s.endTurn).v = s.v := rfl
@[simp] theorem State.endTurn_i (s : State) : (s.endTurn).i = s.i := rfl
@[simp] theorem State.endTurn_pc (s : State) : (s.endTurn).pc = s.pc := rfl
@[simp] theorem State.endTurn_sp (s : State) : (s.endTurn).sp = s.sp := rfl
@[simp] theorem State.endTurn_stk (s : State) : (s.endTurn).stk = s.stk := rfl
@[simp] theorem State.endTurn_dt (s : State) : (s.endTurn).dt = s.dt := rfl
@[simp] theorem State.endTurn_st (s : State) : (s.endTurn).st = s.st := rfl
@[simp] theorem State.endTurn_rs (s : State) : (s.endTurn).rs = s.rs := rfl
@[simp] theorem State.endTurn_fc (s : State) : (s.endTurn).fc = s.fc := rfl
@[simp] theorem State.endTurn_mem (s : State) : (s.endTurn).mem = s.mem := rfl
@[simp] theorem State.endTurn_fb (s : State) : (s.endTurn).fb = s.fb := rfl
@[simp] theorem State.endTurn_turns (s : State) : (s.endTurn).turns = s.turns.tail := rfl
@[simp] theorem State.endTurn_turnCount (s : State) : (s.endTurn).turnCount = s.turnCount + 1 := rfl

/-! `State.coreNext` -/

@[simp] theorem State.coreNext_v (s : State) : (s.coreNext).v = s.v := rfl
@[simp] theorem State.coreNext_i (s : State) : (s.coreNext).i = s.i := rfl
@[simp] theorem State.coreNext_pc (s : State) : (s.coreNext).pc = s.pc := rfl
@[simp] theorem State.coreNext_sp (s : State) : (s.coreNext).sp = s.sp := rfl
@[simp] theorem State.coreNext_stk (s : State) : (s.coreNext).stk = s.stk := rfl
@[simp] theorem State.coreNext_dt (s : State) : (s.coreNext).dt = s.dt := rfl
@[simp] theorem State.coreNext_st (s : State) : (s.coreNext).st = s.st := rfl
@[simp] theorem State.coreNext_rs (s : State) : (s.coreNext).rs = s.rs := rfl
@[simp] theorem State.coreNext_fc (s : State) : (s.coreNext).fc = s.fc := rfl
@[simp] theorem State.coreNext_mem (s : State) : (s.coreNext).mem = s.mem := rfl
@[simp] theorem State.coreNext_fb (s : State) : (s.coreNext).fb = s.fb := rfl
@[simp] theorem State.coreNext_turns (s : State) : (s.coreNext).turns = { s.turn with agent := .core } :: s.turns.tail := rfl
@[simp] theorem State.coreNext_turnCount (s : State) : (s.coreNext).turnCount = s.turnCount := rfl

/-! `timerTick` -/

@[simp] theorem timerTick_v (s : State) : (timerTick s).v = s.v := rfl
@[simp] theorem timerTick_i (s : State) : (timerTick s).i = s.i := rfl
@[simp] theorem timerTick_pc (s : State) : (timerTick s).pc = s.pc := rfl
@[simp] theorem timerTick_sp (s : State) : (timerTick s).sp = s.sp := rfl
@[simp] theorem timerTick_stk (s : State) : (timerTick s).stk = s.stk := rfl
@[simp] theorem timerTick_dt (s : State) : (timerTick s).dt = countDown s.dt := rfl
@[simp] theorem timerTick_st (s : State) : (timerTick s).st = countDown s.st := rfl
@[simp] theorem timerTick_rs (s : State) : (timerTick s).rs = s.rs := rfl
@[simp] theorem timerTick_fc (s : State) : (timerTick s).fc = s.fc := rfl
@[simp] theorem timerTick_mem (s : State) : (timerTick s).mem = s.mem := rfl
@[simp] theorem timerTick_fb (s : State) : (timerTick s).fb = s.fb := rfl
@[simp] theorem timerTick_turns (s : State) : (timerTick s).turns = s.turns := rfl
@[simp] theorem timerTick_turnCount (s : State) : (timerTick s).turnCount = s.turnCount := rfl

/-! `State.skipIf` moves `pc` only. -/

@[simp] theorem State.skipIf_v (s : State) (taken : Bool) : (s.skipIf taken).v = s.v := by cases taken <;> rfl
@[simp] theorem State.skipIf_i (s : State) (taken : Bool) : (s.skipIf taken).i = s.i := by cases taken <;> rfl
@[simp] theorem State.skipIf_pc (s : State) (taken : Bool) :
    (s.skipIf taken).pc = if taken then s.pc + 2 else s.pc := by cases taken <;> rfl
@[simp] theorem State.skipIf_sp (s : State) (taken : Bool) : (s.skipIf taken).sp = s.sp := by cases taken <;> rfl
@[simp] theorem State.skipIf_stk (s : State) (taken : Bool) : (s.skipIf taken).stk = s.stk := by cases taken <;> rfl
@[simp] theorem State.skipIf_dt (s : State) (taken : Bool) : (s.skipIf taken).dt = s.dt := by cases taken <;> rfl
@[simp] theorem State.skipIf_st (s : State) (taken : Bool) : (s.skipIf taken).st = s.st := by cases taken <;> rfl
@[simp] theorem State.skipIf_rs (s : State) (taken : Bool) : (s.skipIf taken).rs = s.rs := by cases taken <;> rfl
@[simp] theorem State.skipIf_fc (s : State) (taken : Bool) : (s.skipIf taken).fc = s.fc := by cases taken <;> rfl
@[simp] theorem State.skipIf_mem (s : State) (taken : Bool) : (s.skipIf taken).mem = s.mem := by cases taken <;> rfl
@[simp] theorem State.skipIf_fb (s : State) (taken : Bool) : (s.skipIf taken).fb = s.fb := by cases taken <;> rfl
@[simp] theorem State.skipIf_turns (s : State) (taken : Bool) : (s.skipIf taken).turns = s.turns := by cases taken <;> rfl
@[simp] theorem State.skipIf_turnCount (s : State) (taken : Bool) : (s.skipIf taken).turnCount = s.turnCount := by cases taken <;> rfl

/-! Registers. -/

theorem Registers.get_put (v : Registers) (x y : Nibble) (b : Byte) :
    (Registers.put v x b).get y = if y = x then b else v.get y := by
  unfold Registers.put Registers.get
  rw [Vector.getElem_set]
  simp [BitVec.toNat_inj, eq_comm]

@[simp] theorem Registers.get_put_self (v : Registers) (x : Nibble) (b : Byte) : (Registers.put v x b).get x = b := by
  simp [Registers.get_put]

theorem Registers.get_put_of_ne (v : Registers) {x y : Nibble} (b : Byte) (h : y ≠ x) :
    (Registers.put v x b).get y = v.get y := by
  simp [Registers.get_put, h]

theorem Registers.get_put_ofNat (v : Registers) (n : Nat) (hn : n < 16) (b : Byte) (x : Nibble) :
    (Registers.put v (BitVec.ofNat 4 n) b).get x = if x.toNat = n then b else v.get x := by
  have same : x = BitVec.ofNat 4 n ↔ x.toNat = n := by
    rw [← BitVec.toNat_inj, BitVec.toNat_ofNat, Nat.mod_eq_of_lt hn]
  simp only [Registers.get_put, same]

theorem State.getV_def (s : State) (x : Nibble) : s.getV x = Registers.get s.v x := rfl

/-- A write is seen by every later read of the same register, and by no other (rule R20). -/
theorem State.getV_setV (s : State) (x y : Nibble) (b : Byte) :
    (s.setV x b).getV y = if y = x then b else s.getV y :=
  Registers.get_put s.v x y b

@[simp] theorem State.getV_setV_self (s : State) (x : Nibble) (b : Byte) : (s.setV x b).getV x = b :=
  Registers.get_put_self s.v x b

theorem State.getV_setV_of_ne (s : State) {x y : Nibble} (b : Byte) (h : y ≠ x) : (s.setV x b).getV y = s.getV y :=
  Registers.get_put_of_ne s.v b h

/-- Two register files that read alike are equal. -/
theorem Registers.ext_get {v w : Registers} (h : ∀ x, v.get x = w.get x) : v = w := by
  apply Vector.ext
  intro k hk
  have := h (BitVec.ofNat 4 k)
  simpa [Registers.get, BitVec.toNat_ofNat, Nat.mod_eq_of_lt hk] using this

/-! The two write orders of rule R162. -/

theorem State.getV_resultThenFlag (s : State) (x y : Nibble) (result flag : Byte) :
    (s.resultThenFlag x result flag).getV y = if y = vf then flag else if y = x then result else s.getV y := by
  simp only [State.resultThenFlag, State.getV_setV]

theorem State.getV_flagThenResult (s : State) (x y : Nibble) (flag result : Byte) :
    (s.flagThenResult x flag result).getV y = if y = x then result else if y = vf then flag else s.getV y := by
  simp only [State.flagThenResult, State.getV_setV]

/-! Turns. -/

theorem State.turn_of_cons (s : State) (t : Turn) (ts : List Turn) (h : s.turns = t :: ts) : s.turn = t := by
  simp [State.turn, h]

@[simp] theorem State.coreNext_agent (s : State) : s.coreNext.turn.agent = .core := rfl

@[simp] theorem mapNext_next (f : State → State) (s : State) : mapNext f (.next s) = .next (f s) := rfl

/-- The next state of `mapNext f` is `f` of a next state. -/
theorem mapNext_eq_next {f : State → State} {o : Outcome} {t : State} :
    mapNext f o = .next t ↔ ∃ u, o = .next u ∧ t = f u := by
  cases o <;> simp [mapNext, eq_comm]

/-! The timers. -/

theorem countDown_toNat (b : Byte) : (countDown b).toNat = b.toNat - 1 := by
  unfold countDown
  split
  · next h => subst h; rfl
  · next h =>
    have : b.toNat ≠ 0 := fun h0 => h (BitVec.eq_of_toNat_eq (by simpa using h0))
    have := b.isLt
    rw [BitVec.toNat_sub]
    change (2 ^ 8 - 1 + b.toNat) % 2 ^ 8 = b.toNat - 1
    omega

end Sys2Proof.Machine
end

