-- ==== Sys2Proof/Laws/Display.lean ====
section
/-! SUPPORT. The framebuffer's read after a write, and what the loop of `DXYN` does to the pixels and to the collision
(rule R121): a sprite is a set of pixels that are toggled, each at most once. -/

namespace Sys2Proof.Machine

theorem Framebuffer.get_put (fb : Framebuffer) (x x' : Fin 64) (y y' : Fin 32) (b : Bool) :
    (Framebuffer.put fb x y b).get x' y' = if x' = x ∧ y' = y then b else fb.get x' y' := by
  unfold Framebuffer.put Framebuffer.get
  by_cases hy : y' = y
  · subst hy
    rw [Vector.getElem_set_self, Vector.getElem_set]
    simp [Fin.ext_iff, eq_comm]
  · rw [Vector.getElem_set_ne _ _ (by simpa [Fin.ext_iff, eq_comm] using hy)]
    simp [hy]

@[simp] theorem Framebuffer.get_clear (x : Fin 64) (y : Fin 32) : Framebuffer.clear.get x y = false := by
  simp [Framebuffer.clear, Framebuffer.get]

/-- Two framebuffers that read alike are equal. -/
theorem Framebuffer.ext_get {fb gb : Framebuffer} (h : ∀ x y, fb.get x y = gb.get x y) : fb = gb := by
  apply Vector.ext
  intro y hy
  apply Vector.ext
  intro x hx
  exact h ⟨x, hx⟩ ⟨y, hy⟩

/-- From `p` to `q` exactly the pixels of `on` are toggled, and the collision is raised by those that were on. -/
structure Toggles (on : Fin 64 → Fin 32 → Bool) (p q : Framebuffer × Bool) : Prop where
  pixel : ∀ x y, q.1.get x y = (p.1.get x y ^^ on x y)
  hit : q.2 = true ↔ p.2 = true ∨ ∃ x y, p.1.get x y = true ∧ on x y = true

theorem Toggles.refl {on : Fin 64 → Fin 32 → Bool} (h : ∀ x y, on x y = false) (p : Framebuffer × Bool) :
    Toggles on p p :=
  ⟨by simp [h], by simp [h]⟩

/-- Two sets of pixels with none in common, one after the other. -/
theorem Toggles.trans {on on₁ on₂ : Fin 64 → Fin 32 → Bool} {p q r : Framebuffer × Bool} (first : Toggles on₁ p q)
    (second : Toggles on₂ q r) (apart : ∀ x y, on₁ x y = true → on₂ x y = false)
    (both : ∀ x y, on x y = (on₁ x y || on₂ x y)) : Toggles on p r := by
  constructor
  · intro x y
    rw [second.pixel, first.pixel, both]
    have := apart x y
    revert this
    cases on₁ x y <;> cases on₂ x y <;> simp
  · rw [second.hit, first.hit, or_assoc]
    refine or_congr_right ⟨?_, ?_⟩
    · rintro (⟨x, y, was, h⟩ | ⟨x, y, was, h⟩)
      · exact ⟨x, y, was, by simp [both, h]⟩
      · have : on₁ x y = false := by
          by_contra h1
          simp [apart x y (by simpa using h1)] at h
        rw [first.pixel, this, Bool.xor_false] at was
        exact ⟨x, y, was, by simp [both, h]⟩
    · rintro ⟨x, y, was, h⟩
      by_cases h1 : on₁ x y = true
      · exact .inl ⟨x, y, was, h1⟩
      · have h1 : on₁ x y = false := by simpa using h1
        refine .inr ⟨x, y, ?_, by simpa [both, h1] using h⟩
        rw [first.pixel, was, h1]
        rfl

/-- The pixels of one sprite byte on row `y`, as far as `n` columns. -/
def rowPixels (b : Byte) (x0 n : Nat) (y : Fin 32) (px : Fin 64) (py : Fin 32) : Bool :=
  decide (py = y) && (decide (x0 ≤ px.val ∧ px.val < x0 + n) && b.getLsbD (7 - (px.val - x0)))

/-- The pixels of a sprite of `n` rows at `(x0, y0)` (rule R121). -/
def spritePixels (m : Memory) (i : Word) (x0 y0 n : Nat) (px : Fin 64) (py : Fin 32) : Bool :=
  decide (y0 ≤ py.val ∧ py.val < y0 + n) &&
    (decide (x0 ≤ px.val ∧ px.val < x0 + 8) &&
      (m.read (dataAddr i (py.val - y0))).getLsbD (7 - (px.val - x0)))

theorem drawColumn_toggles (y : Fin 32) (x0 : Nat) (b : Byte) (p : Framebuffer × Bool) (c : Nat) :
    Toggles (fun px py => decide (py = y) && (decide (px.val = x0 + c) && b.getLsbD (7 - c))) p
      (drawColumn y x0 b p c) := by
  unfold drawColumn
  split
  · next h =>
    split
    · next bit =>
      have here : ∀ px : Fin 64, px.val = x0 + c ↔ px = ⟨x0 + c, h⟩ := fun px => by simp [Fin.ext_iff]
      constructor
      · intro px py
        simp only [Framebuffer.get_put, bit, here]
        by_cases hx : px = ⟨x0 + c, h⟩ <;> by_cases hy : py = y <;> simp [hx, hy]
      · simp only [Bool.or_eq_true, bit, here, Bool.and_true, Bool.and_eq_true, decide_eq_true_eq]
        refine or_congr_right ⟨fun was => ⟨_, _, was, rfl, rfl⟩, ?_⟩
        rintro ⟨px, py, was, rfl, rfl⟩
        exact was
    · next bit =>
      exact Toggles.refl (by simp [bit]) p
  · next h =>
    exact Toggles.refl (fun px py => by simp [show px.val ≠ x0 + c by omega]) p

theorem drawColumns_toggles (y : Fin 32) (x0 : Nat) (b : Byte) (p : Framebuffer × Bool) (n : Nat) :
    Toggles (rowPixels b x0 n y) p ((List.range n).foldl (drawColumn y x0 b) p) := by
  induction n with
  | zero => exact Toggles.refl (fun px py => by simp [rowPixels]) p
  | succ n ih =>
    rw [List.range_succ, List.foldl_append, List.foldl_cons, List.foldl_nil]
    refine ih.trans (drawColumn_toggles y x0 b _ n) (fun px py h => ?_) fun px py => ?_
    · simp only [rowPixels, Bool.and_eq_true, decide_eq_true_eq] at h
      simp [show px.val ≠ x0 + n by omega]
    · unfold rowPixels
      by_cases e : px.val = x0 + n
      · simp [e]
      · simp [e, show (x0 ≤ px.val ∧ px.val < x0 + (n + 1)) ↔ (x0 ≤ px.val ∧ px.val < x0 + n) by omega]

theorem drawRow_toggles (m : Memory) (i : Word) (x0 y0 : Nat) (p : Framebuffer × Bool) (r : Nat) :
    Toggles (fun px py => decide (py.val = y0 + r) &&
      (decide (x0 ≤ px.val ∧ px.val < x0 + 8) && (m.read (dataAddr i r)).getLsbD (7 - (px.val - x0)))) p
      (drawRow m i x0 y0 p r) := by
  unfold drawRow
  split
  · next h =>
    have here : ∀ py : Fin 32, py.val = y0 + r ↔ py = ⟨y0 + r, h⟩ := fun py => by simp [Fin.ext_iff]
    simp only [here]
    exact drawColumns_toggles ⟨y0 + r, h⟩ x0 _ p 8
  · next h =>
    exact Toggles.refl (fun px py => by simp [show py.val ≠ y0 + r by omega]) p

/-- `draw_sprite` toggles the on-screen pixels of the sprite, and collides where one of them was on. -/
theorem drawSprite_toggles (m : Memory) (i : Word) (x0 y0 n : Nat) (fb : Framebuffer) :
    Toggles (spritePixels m i x0 y0 n) (fb, false) (drawSprite m i x0 y0 n fb) := by
  unfold drawSprite
  induction n with
  | zero => exact Toggles.refl (fun px py => by simp [spritePixels]) _
  | succ n ih =>
    rw [List.range_succ, List.foldl_append, List.foldl_cons, List.foldl_nil]
    refine ih.trans (drawRow_toggles m i x0 y0 _ n) (fun px py h => ?_) fun px py => ?_
    · simp only [spritePixels, Bool.and_eq_true, decide_eq_true_eq] at h
      simp [show py.val ≠ y0 + n by omega]
    · unfold spritePixels
      by_cases e : py.val = y0 + n
      · simp [e]
      · simp [e, show (y0 ≤ py.val ∧ py.val < y0 + (n + 1)) ↔ (y0 ≤ py.val ∧ py.val < y0 + n) by omega]

end Sys2Proof.Machine
end

