-- ==== Sys2Proof/Laws/Memory.lean ====
section
/-! SUPPORT. The memory: a read after a write (rule R64), the canonical form, the 12-bit bus (rule R63), and the loops
of `FX55`, `FX65` and of the ROM load. -/

namespace Sys2Proof.Machine

theorem Memory.cell_cons (c : Host.Cell) (m : Memory) (a : Nat) :
    Memory.cell (c :: m) a = if c.1 = a then c.2 else Memory.cell m a := rfl

theorem Memory.cell_of_unlisted {m : Memory} {a : Nat} (h : ∀ c ∈ m, c.1 ≠ a) : m.cell a = Memory.resetByte a := by
  induction m with
  | nil => rfl
  | cons c m ih =>
    rw [Memory.cell_cons, if_neg (h c (by simp))]
    exact ih fun d hd => h d (by simp [hd])

theorem Memory.cell_filter (m : Memory) {a a' : Nat} (h : a' ≠ a) :
    Memory.cell (m.filter fun c => c.1 ≠ a) a' = m.cell a' := by
  induction m with
  | nil => rfl
  | cons c m ih =>
    by_cases hc : c.1 = a
    · have : c.1 ≠ a' := fun h' => h (h' ▸ hc)
      simpa [List.filter_cons, hc, Memory.cell_cons, Ne.symm h] using ih
    · rw [List.filter_cons_of_pos (by simpa using hc), Memory.cell_cons, Memory.cell_cons, ih]

theorem Memory.cell_place {m : Memory} {a : Nat} (b : Byte) (a' : Nat) (h : ∀ c ∈ m, c.1 ≠ a) :
    (Memory.place m a b).cell a' = if a' = a then b else m.cell a' := by
  induction m with
  | nil => simp [Memory.place, Memory.cell_cons, eq_comm]
  | cons c m ih =>
    have ih := ih fun d hd => h d (by simp [hd])
    have hc := h c (by simp)
    unfold Memory.place
    split
    · by_cases e : a' = a
      · simp [Memory.cell_cons, e]
      · simp [Memory.cell_cons, e, Ne.symm e]
    · rw [Memory.cell_cons, Memory.cell_cons, ih]
      by_cases e : a' = a
      · simp [e, hc]
      · simp [e]

/-- A stored byte is read back, and every other byte reads as before, in every memory. -/
theorem Memory.cell_put (m : Memory) (a : Nat) (b : Byte) (a' : Nat) :
    (m.put a b).cell a' = if a' = a then b else m.cell a' := by
  have gone : ∀ c ∈ m.filter (fun c => c.1 ≠ a), c.1 ≠ a := fun c hc => by simpa using (List.mem_filter.mp hc).2
  unfold Memory.put
  by_cases hb : b = Memory.resetByte a
  · simp only [hb, if_true]
    by_cases e : a' = a
    · rw [if_pos e, e]
      exact Memory.cell_of_unlisted gone
    · rw [if_neg e]
      exact Memory.cell_filter m e
  · simp only [hb, if_false]
    rw [Memory.cell_place b a' gone]
    by_cases e : a' = a
    · simp [e]
    · rw [if_neg e, if_neg e]
      exact Memory.cell_filter m e

theorem Memory.mem_place {m : Memory} {a : Nat} {b : Byte} {c : Host.Cell} (h : c ∈ Memory.place m a b) :
    c = (a, b) ∨ c ∈ m := by
  induction m with
  | nil => simpa [Memory.place] using h
  | cons d m ih =>
    unfold Memory.place at h
    split at h
    · simpa using h
    · rcases List.mem_cons.mp h with h | h
      · exact .inr (by simp [h])
      · rcases ih h with h | h
        · exact .inl h
        · exact .inr (by simp [h])

theorem Memory.pairwise_place {m : Memory} {a : Nat} (b : Byte) (sorted : m.Pairwise fun c d => c.1 < d.1)
    (h : ∀ c ∈ m, c.1 ≠ a) : (Memory.place m a b).Pairwise fun c d => c.1 < d.1 := by
  induction m with
  | nil => simp [Memory.place]
  | cons c m ih =>
    rw [List.pairwise_cons] at sorted
    have hc := h c (by simp)
    unfold Memory.place
    split
    · next lt =>
      refine List.pairwise_cons.mpr ⟨fun d hd => ?_, List.pairwise_cons.mpr sorted⟩
      rcases List.mem_cons.mp hd with rfl | hd
      · exact lt
      · exact Nat.lt_trans lt (sorted.1 d hd)
    · next ge =>
      refine List.pairwise_cons.mpr ⟨fun d hd => ?_, ih sorted.2 fun d hd => h d (by simp [hd])⟩
      rcases Memory.mem_place hd with rfl | hd
      · exact Nat.lt_of_le_of_ne (Nat.not_lt.mp ge) hc
      · exact sorted.1 d hd

/-- Storing a byte inside the memory keeps the canonical form. -/
theorem Memory.wf_put {m : Memory} (wf : m.wf) {a : Nat} (ha : a < Config.memSize) (b : Byte) : (m.put a b).wf := by
  have gone : ∀ c ∈ m.filter (fun c => c.1 ≠ a), c.1 ≠ a := fun c hc => by simpa using (List.mem_filter.mp hc).2
  have old : ∀ c ∈ m.filter (fun c => c.1 ≠ a), c.1 < Config.memSize ∧ c.2 ≠ Memory.resetByte c.1 :=
    fun c hc => wf.2 c (List.mem_filter.mp hc).1
  have sorted := wf.1.filter (fun c => c.1 ≠ a)
  unfold Memory.put
  by_cases hb : b = Memory.resetByte a
  · simp only [hb, if_true]
    exact ⟨sorted, old⟩
  · simp only [hb, if_false]
    refine ⟨Memory.pairwise_place b sorted gone, fun c hc => ?_⟩
    rcases Memory.mem_place hc with rfl | hc
    · exact ⟨ha, hb⟩
    · exact old c hc

/-! The address bus. -/

theorem busAddr_eq_mod (a : Word) : busAddr a = a.toNat % 4096 := by
  unfold busAddr
  rw [BitVec.toNat_and, show (0x0FFF#16).toNat = 2 ^ 12 - 1 from rfl, Nat.and_two_pow_sub_one_eq_mod]

theorem busAddr_lt (a : Word) : busAddr a < Config.memSize := by
  rw [busAddr_eq_mod]
  exact Nat.mod_lt _ (by decide)

theorem busAddr_inj (a b : Word) : busAddr a = busAddr b ↔ a &&& 0x0FFF#16 = b &&& 0x0FFF#16 :=
  BitVec.toNat_inj

theorem busAddr_dataAddr (i : Word) (r : Nat) : busAddr (dataAddr i r) = (i.toNat + r) % 4096 := by
  rw [busAddr_eq_mod, dataAddr, BitVec.toNat_add, BitVec.toNat_ofNat]
  omega

/-- Two offsets below 4096 from one `I` are two addresses (rule R68). -/
theorem busAddr_dataAddr_inj (i : Word) {r q : Nat} (hr : r < 4096) (hq : q < 4096) :
    busAddr (dataAddr i r) = busAddr (dataAddr i q) ↔ r = q := by
  rw [busAddr_dataAddr, busAddr_dataAddr]
  omega

/-! `MemRead`, `MemWrite` (rule R64). -/

theorem Memory.read_write (m : Memory) (a : Word) (b : Byte) (a' : Word) :
    (m.write a b).read a' = if busAddr a' = busAddr a then b else m.read a' :=
  Memory.cell_put m (busAddr a) b (busAddr a')

theorem Memory.wf_write {m : Memory} (wf : m.wf) (a : Word) (b : Byte) : (m.write a b).wf :=
  Memory.wf_put wf (busAddr_lt a) b

theorem Memory.wf_reset : State.reset.mem.wf := by decide

/-! The loop of `FX55` (rule R184). -/

theorem Memory.wf_storeRounds (s : State) (rs : List Nat) {m : Memory} (wf : m.wf) :
    (rs.foldl (storeRound s) m).wf := by
  induction rs generalizing m with
  | nil => exact wf
  | cons r rs ih => exact ih (Memory.wf_write wf _ _)

theorem Memory.read_storeRounds_other (s : State) (rs : List Nat) (m : Memory) (a : Word)
    (h : ∀ r ∈ rs, busAddr a ≠ busAddr (dataAddr s.i r)) : (rs.foldl (storeRound s) m).read a = m.read a := by
  induction rs generalizing m with
  | nil => rfl
  | cons r rs ih =>
    rw [List.foldl_cons, ih _ fun q hq => h q (by simp [hq]), storeRound, Memory.read_write, if_neg (h r (by simp))]

theorem Memory.read_storeRounds (s : State) (n : Nat) (hn : n ≤ 16) (m : Memory) {r : Nat} (hr : r < n) :
    ((List.range n).foldl (storeRound s) m).read (dataAddr s.i r) = s.getV (BitVec.ofNat 4 r) := by
  induction n with
  | zero => omega
  | succ n ih =>
    rw [List.range_succ, List.foldl_append, List.foldl_cons, List.foldl_nil, storeRound, Memory.read_write]
    by_cases e : r = n
    · rw [e, if_pos rfl]
    · rw [if_neg (by rw [busAddr_dataAddr_inj] <;> omega)]
      exact ih (by omega) (by omega)

/-! The loop of `FX65` (rule R185). -/

theorem Registers.get_loadRounds (s : State) (n : Nat) (hn : n ≤ 16) (v : Registers) (x : Nibble) :
    ((List.range n).foldl (loadRound s) v).get x =
      if x.toNat < n then s.mem.read (dataAddr s.i x.toNat) else v.get x := by
  induction n with
  | zero => simp
  | succ n ih =>
    rw [List.range_succ, List.foldl_append, List.foldl_cons, List.foldl_nil, loadRound]
    have put := fun w : Registers => Registers.get_put_ofNat w n (by omega) (s.mem.read (dataAddr s.i n)) x
    rw [put, ih (by omega)]
    by_cases e : x.toNat = n
    · simp [e]
    · by_cases lt : x.toNat < n
      · simp [e, lt, Nat.lt_succ_of_lt lt]
      · simp [e, lt, show ¬x.toNat < n + 1 by omega]

/-! The ROM load (rule R71). -/

theorem Memory.cell_load (rom : List Byte) (m : Memory) (a a' : Nat) :
    (Memory.load m a rom).cell a' = if a ≤ a' then (rom[a' - a]?).getD (m.cell a') else m.cell a' := by
  induction rom generalizing m a with
  | nil => simp [Memory.load]
  | cons b rom ih =>
    rw [Memory.load, ih, Memory.cell_put]
    by_cases e : a' = a
    · simp [e]
    · by_cases le : a ≤ a'
      · obtain ⟨d, rfl⟩ : ∃ d, a' = a + 1 + d := ⟨a' - (a + 1), by omega⟩
        simp [show a + 1 + d - a = d + 1 by omega, show a ≤ a + 1 + d by omega, show a + 1 + d ≠ a by omega]
      · simp [e, le, show ¬a + 1 ≤ a' by omega]

theorem Memory.wf_load (rom : List Byte) {m : Memory} (wf : m.wf) (a : Nat) (room : a + rom.length ≤ Config.memSize) :
    (Memory.load m a rom).wf := by
  induction rom generalizing m a with
  | nil => exact wf
  | cons b rom ih =>
    rw [List.length_cons] at room
    exact ih (Memory.wf_put wf (by omega) b) (a + 1) (by omega)

end Sys2Proof.Machine
end

