-- ==== Sys2Proof/Laws/PerInstr.lean ====
section
/-! SUPPORT. Made per instruction: the operands are in range (rule R92), and the word fits the instruction's own row of
the opcode map (rule R94). -/

namespace Sys2Proof.Laws.OpcodeRowFit

/-- The operands are in range, the row is one of the 34, and the encoded word fits it. -/
def Statement (i : Instr) : Prop :=
  i.wellFormed = true ∧ i.row ∈ opcodeMap ∧ i.row.covers (encode i) = true

theorem fieldX (x : Nibble) : Field.wellFormed (.x x.toNat) = true := decide_eq_true (Nat.le_of_lt_succ x.isLt)

theorem fieldY (y : Nibble) : Field.wellFormed (.y y.toNat) = true := decide_eq_true (Nat.le_of_lt_succ y.isLt)

theorem fieldN (n : Nibble) : Field.wellFormed (.n n.toNat) = true := decide_eq_true (Nat.le_of_lt_succ n.isLt)

theorem fieldNN (nn : Byte) : Field.wellFormed (.nn nn.toNat) = true := decide_eq_true (Nat.le_of_lt_succ nn.isLt)

theorem fieldNNN (nnn : Addr12) : Field.wellFormed (.nnn nnn.toNat) = true :=
  decide_eq_true (Nat.le_of_lt_succ nnn.isLt)

theorem wfX (i : Instr) {x : Nibble} (h : i.fields = [.x x.toNat]) : i.wellFormed = true := by
  simp [Instr.wellFormed, h, fieldX]

theorem wfXNN (i : Instr) {x : Nibble} {nn : Byte} (h : i.fields = [.x x.toNat, .nn nn.toNat]) :
    i.wellFormed = true := by
  simp [Instr.wellFormed, h, fieldX, fieldNN]

theorem wfXY (i : Instr) {x y : Nibble} (h : i.fields = [.x x.toNat, .y y.toNat]) : i.wellFormed = true := by
  simp [Instr.wellFormed, h, fieldX, fieldY]

theorem wfXYN (i : Instr) {x y n : Nibble} (h : i.fields = [.x x.toNat, .y y.toNat, .n n.toNat]) :
    i.wellFormed = true := by
  simp [Instr.wellFormed, h, fieldX, fieldY, fieldN]

theorem wfNNN (i : Instr) {nnn : Addr12} (h : i.fields = [.nnn nnn.toNat]) : i.wellFormed = true := by
  simp [Instr.wellFormed, h, fieldNNN]

theorem cls : Statement .cls :=
  ⟨rfl, of_decide_eq_true rfl, rfl⟩

theorem ret : Statement .ret :=
  ⟨rfl, of_decide_eq_true rfl, rfl⟩

theorem jp (nnn : Addr12) : Statement (.jp nnn) :=
  ⟨wfNNN _ rfl, of_decide_eq_true rfl, beq_of_eq ((formatA_mask _ _).trans rfl)⟩

theorem call (nnn : Addr12) : Statement (.call nnn) :=
  ⟨wfNNN _ rfl, of_decide_eq_true rfl, beq_of_eq ((formatA_mask _ _).trans rfl)⟩

theorem seImm (x : Nibble) (nn : Byte) : Statement (.seImm x nn) :=
  ⟨wfXNN _ rfl, of_decide_eq_true rfl, beq_of_eq ((formatI_familyMask _ _ _).trans rfl)⟩

theorem sneImm (x : Nibble) (nn : Byte) : Statement (.sneImm x nn) :=
  ⟨wfXNN _ rfl, of_decide_eq_true rfl, beq_of_eq ((formatI_familyMask _ _ _).trans rfl)⟩

theorem seReg (x y : Nibble) : Statement (.seReg x y) :=
  ⟨wfXY _ rfl, of_decide_eq_true rfl, beq_of_eq ((formatD_mask _ _ _ _).trans rfl)⟩

theorem ldImm (x : Nibble) (nn : Byte) : Statement (.ldImm x nn) :=
  ⟨wfXNN _ rfl, of_decide_eq_true rfl, beq_of_eq ((formatI_familyMask _ _ _).trans rfl)⟩

theorem addImm (x : Nibble) (nn : Byte) : Statement (.addImm x nn) :=
  ⟨wfXNN _ rfl, of_decide_eq_true rfl, beq_of_eq ((formatI_familyMask _ _ _).trans rfl)⟩

theorem ldReg (x y : Nibble) : Statement (.ldReg x y) :=
  ⟨wfXY _ rfl, of_decide_eq_true rfl, beq_of_eq ((formatD_mask _ _ _ _).trans rfl)⟩

theorem or (x y : Nibble) : Statement (.or x y) :=
  ⟨wfXY _ rfl, of_decide_eq_true rfl, beq_of_eq ((formatD_mask _ _ _ _).trans rfl)⟩

theorem and (x y : Nibble) : Statement (.and x y) :=
  ⟨wfXY _ rfl, of_decide_eq_true rfl, beq_of_eq ((formatD_mask _ _ _ _).trans rfl)⟩

theorem xor (x y : Nibble) : Statement (.xor x y) :=
  ⟨wfXY _ rfl, of_decide_eq_true rfl, beq_of_eq ((formatD_mask _ _ _ _).trans rfl)⟩

theorem addReg (x y : Nibble) : Statement (.addReg x y) :=
  ⟨wfXY _ rfl, of_decide_eq_true rfl, beq_of_eq ((formatD_mask _ _ _ _).trans rfl)⟩

theorem sub (x y : Nibble) : Statement (.sub x y) :=
  ⟨wfXY _ rfl, of_decide_eq_true rfl, beq_of_eq ((formatD_mask _ _ _ _).trans rfl)⟩

theorem shr (x y : Nibble) : Statement (.shr x y) :=
  ⟨wfXY _ rfl, of_decide_eq_true rfl, beq_of_eq ((formatD_mask _ _ _ _).trans rfl)⟩

theorem subn (x y : Nibble) : Statement (.subn x y) :=
  ⟨wfXY _ rfl, of_decide_eq_true rfl, beq_of_eq ((formatD_mask _ _ _ _).trans rfl)⟩

theorem shl (x y : Nibble) : Statement (.shl x y) :=
  ⟨wfXY _ rfl, of_decide_eq_true rfl, beq_of_eq ((formatD_mask _ _ _ _).trans rfl)⟩

theorem sneReg (x y : Nibble) : Statement (.sneReg x y) :=
  ⟨wfXY _ rfl, of_decide_eq_true rfl, beq_of_eq ((formatD_mask _ _ _ _).trans rfl)⟩

theorem ldI (nnn : Addr12) : Statement (.ldI nnn) :=
  ⟨wfNNN _ rfl, of_decide_eq_true rfl, beq_of_eq ((formatA_mask _ _).trans rfl)⟩

theorem jpV0 (nnn : Addr12) : Statement (.jpV0 nnn) :=
  ⟨wfNNN _ rfl, of_decide_eq_true rfl, beq_of_eq ((formatA_mask _ _).trans rfl)⟩

theorem rnd (x : Nibble) (nn : Byte) : Statement (.rnd x nn) :=
  ⟨wfXNN _ rfl, of_decide_eq_true rfl, beq_of_eq ((formatI_familyMask _ _ _).trans rfl)⟩

theorem drw (x y n : Nibble) : Statement (.drw x y n) :=
  ⟨wfXYN _ rfl, of_decide_eq_true rfl, beq_of_eq ((formatD_familyMask _ _ _ _).trans rfl)⟩

theorem skp (x : Nibble) : Statement (.skp x) :=
  ⟨wfX _ rfl, of_decide_eq_true rfl, beq_of_eq ((formatI_mask _ _ _).trans rfl)⟩

theorem sknp (x : Nibble) : Statement (.sknp x) :=
  ⟨wfX _ rfl, of_decide_eq_true rfl, beq_of_eq ((formatI_mask _ _ _).trans rfl)⟩

theorem ldVxDT (x : Nibble) : Statement (.ldVxDT x) :=
  ⟨wfX _ rfl, of_decide_eq_true rfl, beq_of_eq ((formatI_mask _ _ _).trans rfl)⟩

theorem ldVxK (x : Nibble) : Statement (.ldVxK x) :=
  ⟨wfX _ rfl, of_decide_eq_true rfl, beq_of_eq ((formatI_mask _ _ _).trans rfl)⟩

theorem ldDTVx (x : Nibble) : Statement (.ldDTVx x) :=
  ⟨wfX _ rfl, of_decide_eq_true rfl, beq_of_eq ((formatI_mask _ _ _).trans rfl)⟩

theorem ldSTVx (x : Nibble) : Statement (.ldSTVx x) :=
  ⟨wfX _ rfl, of_decide_eq_true rfl, beq_of_eq ((formatI_mask _ _ _).trans rfl)⟩

theorem addI (x : Nibble) : Statement (.addI x) :=
  ⟨wfX _ rfl, of_decide_eq_true rfl, beq_of_eq ((formatI_mask _ _ _).trans rfl)⟩

theorem ldF (x : Nibble) : Statement (.ldF x) :=
  ⟨wfX _ rfl, of_decide_eq_true rfl, beq_of_eq ((formatI_mask _ _ _).trans rfl)⟩

theorem ldB (x : Nibble) : Statement (.ldB x) :=
  ⟨wfX _ rfl, of_decide_eq_true rfl, beq_of_eq ((formatI_mask _ _ _).trans rfl)⟩

theorem storeRegs (x : Nibble) : Statement (.storeRegs x) :=
  ⟨wfX _ rfl, of_decide_eq_true rfl, beq_of_eq ((formatI_mask _ _ _).trans rfl)⟩

theorem loadRegs (x : Nibble) : Statement (.loadRegs x) :=
  ⟨wfX _ rfl, of_decide_eq_true rfl, beq_of_eq ((formatI_mask _ _ _).trans rfl)⟩

end Sys2Proof.Laws.OpcodeRowFit
end

