-- ==== Sys2Proof/Laws/Step.lean ====
section
/-! SUPPORT. What a step can do, said once (rules R221 to R226). -/

namespace Sys2Proof.Machine

theorem State.instrAddr_advance (s : State) : s.advance.instrAddr = s.pc := by
  simp [State.instrAddr]

/-- Every instruction answers a next state: a fault of the machine is a state too (rule R233). -/
theorem exec_answers_next (i : Instr) (s : State) : ∃ t, exec i s = .next t := by
  cases i with
  | ret => simp only [exec, execRet]; split <;> exact ⟨_, rfl⟩
  | call nnn => simp only [exec, execCall]; split <;> exact ⟨_, rfl⟩
  | _ => exact ⟨_, rfl⟩

/-- The five things a step can do, each with the condition under which it does it. -/
theorem step_cases {s t : State} (h : step s = .next t) :
    (∃ i u, s.rs = .running ∧ s.turn.agent = .core ∧ decodeWord s.fetch = .instr i ∧
      exec i s.advance = .next u ∧ t = u.endTurn) ∨
    (s.rs = .running ∧ s.turn.agent = .core ∧ decodeWord s.fetch = .unknown ∧
      t = (s.advance.raise .unknownOpcode s.fetch).endTurn) ∨
    (∃ x, s.rs = .waitingForKey x ∧ s.turn.agent = .core ∧ t = (keyPoll x s).endTurn) ∨
    ((∀ c, s.rs ≠ .halted c) ∧ s.turn.agent = .timer ∧ t = (timerTick s).endTurn) ∨
    ((∀ c, s.rs ≠ .halted c) ∧ s.turn.agent = .refresh ∧ t = s.endTurn) := by
  unfold step takeTurn at h
  cases hrs : s.rs with
  | halted c => simp [hrs] at h
  | running =>
    simp only [hrs] at h
    obtain ⟨u, hu, rfl⟩ := mapNext_eq_next.mp h
    cases ha : s.turn.agent with
    | core =>
      simp only [ha, agentStep, coreStep, hrs, cycle] at hu
      cases hd : decodeWord s.fetch with
      | instr i => exact .inl ⟨i, u, rfl, rfl, rfl, by simpa only [hd] using hu, rfl⟩
      | unknown =>
        simp only [hd, Host.Outcome.next.injEq] at hu
        exact .inr (.inl ⟨rfl, rfl, rfl, by rw [← hu]⟩)
    | timer =>
      simp only [ha, agentStep, Host.Outcome.next.injEq] at hu
      exact .inr (.inr (.inr (.inl ⟨by simp, rfl, by rw [← hu]⟩)))
    | refresh =>
      simp only [ha, agentStep, Host.Outcome.next.injEq] at hu
      exact .inr (.inr (.inr (.inr ⟨by simp, rfl, by rw [← hu]⟩)))
  | waitingForKey x =>
    simp only [hrs] at h
    obtain ⟨u, hu, rfl⟩ := mapNext_eq_next.mp h
    cases ha : s.turn.agent with
    | core =>
      simp only [ha, agentStep, coreStep, hrs, Host.Outcome.next.injEq] at hu
      exact .inr (.inr (.inl ⟨x, rfl, rfl, by rw [← hu]⟩))
    | timer =>
      simp only [ha, agentStep, Host.Outcome.next.injEq] at hu
      exact .inr (.inr (.inr (.inl ⟨by simp, rfl, by rw [← hu]⟩)))
    | refresh =>
      simp only [ha, agentStep, Host.Outcome.next.injEq] at hu
      exact .inr (.inr (.inr (.inr ⟨by simp, rfl, by rw [← hu]⟩)))

/-- A run goes on from the state a step answers. -/
theorem run_succ {s t : State} (h : step s = .next t) (n : Nat) :
    Sys2Proof.core.run (n + 1) s = Sys2Proof.core.run n t := by
  have h' : Sys2Proof.core.step s = .next t := h
  simp only [Host.Core.run, h']

end Sys2Proof.Machine
end

