-- ==== Sys2Proof/Tests/Slice0.lean ====
section
/-! SUPPORT. Tests of the model's own, one step each, and a witness for the hypotheses of every statement that has some.
The words are written out from 30_encoding.md sections 2 to 4; the expected results are the worked examples of
95_test_vectors.md (`T<n>`, `E<n>` and `P<n>` name them) or hand calculation from a rule. -/

namespace Sys2Proof.Tests

open Sys2Proof.Machine

/-! The states of the tests: the base state of 95_test_vectors.md section 0, its next turn the core's, with no input. -/

def coreTurn : Turn := { agent := .core, keys := 0x0000#16, krel := none, rand := 0x00#8 }

def base : State := { State.reset with turns := [coreTurn] }

def startAt (pc : Word) (s : State) : State := { s with pc := pc }

def index (i : Word) : State := { base with i := i }

def poke (a : Word) (b : Byte) (s : State) : State := { s with mem := s.mem.write a b }

def keys (k : BitVec 16) (s : State) : State := { s with turns := [{ coreTurn with keys := k }] }

def krel (k : Option Nibble) (s : State) : State := { s with turns := [{ coreTurn with krel := k }] }

def rand (b : Byte) (s : State) : State := { s with turns := [{ coreTurn with rand := b }] }

def agent (a : Config.Agent) (s : State) : State := { s with turns := [{ coreTurn with agent := a }] }

def waiting (x : Nibble) (s : State) : State := { s with rs := .waitingForKey x }

/-- `k` live entries, the top one `a`. -/
def stacked (k : Fin 17) (a : Word) (s : State) : State := { s with sp := k, stk := Vector.replicate 16 a }

def light (x : Fin 64) (y : Fin 32) (s : State) : State := { s with fb := Framebuffer.put s.fb x y true }

/-- `s` with the word `w` where it is fetched next. -/
def placed (w : Word) (s : State) : State := poke (s.pc + 1) (lowByte w) (poke s.pc (highByte w) s)

/-- One step is answered, and its state passes the check. -/
def stepTo (s : State) (check : State → Bool) : Bool :=
  match step s with
  | .next t => check t
  | .fault _ => false
  | .refused _ => false

/-- The word `w` runs from `s` in one step, and the state it leaves passes the check. -/
def runs (w : Word) (s : State) (check : State → Bool) : Bool := stepTo (placed w s) check

/-- The pixels of a row that are on. -/
def rowOn (y : Fin 32) (t : State) : List (Fin 64) := (List.finRange 64).filter fun x => Framebuffer.get t.fb x y

/-! ## WellFormed refuses an ill-formed operand of each kind (rule R92) -/

theorem test_wellFormed_refuses_x : (Field.x 16).wellFormed = false ∧ (Field.x 15).wellFormed = true := by decide

theorem test_wellFormed_refuses_y : (Field.y 16).wellFormed = false ∧ (Field.y 15).wellFormed = true := by decide

theorem test_wellFormed_refuses_nn : (Field.nn 256).wellFormed = false ∧ (Field.nn 255).wellFormed = true := by decide

theorem test_wellFormed_refuses_nnn : (Field.nnn 4096).wellFormed = false ∧ (Field.nnn 4095).wellFormed = true := by
  decide

theorem test_wellFormed_refuses_n : (Field.n 16).wellFormed = false ∧ (Field.n 15).wellFormed = true := by decide

theorem test_wellFormed_operands : (Instr.drw 1 2 15).fields = [.x 1, .y 2, .n 15] ∧
    (Instr.seImm 3 0xFF#8).fields = [.x 3, .nn 255] ∧ (Instr.call 0xFFF#12).fields = [.nnn 4095] := by decide

/-! ## Decoding: one word of every row, written out from its pattern -/

theorem test_decode_cls : decodeWord 0b0000000011100000#16 = .instr (.cls) := by decide

theorem test_decode_ret : decodeWord 0b0000000011101110#16 = .instr (.ret) := by decide

theorem test_decode_jp : decodeWord 0b0001001000110100#16 = .instr (.jp 0x234#12) := by decide

theorem test_decode_call : decodeWord 0b0010101010111100#16 = .instr (.call 0xABC#12) := by decide

theorem test_decode_seImm : decodeWord 0b0011001100101010#16 = .instr (.seImm 3 0x2A#8) := by decide

theorem test_decode_sneImm : decodeWord 0b0100001100101011#16 = .instr (.sneImm 3 0x2B#8) := by decide

theorem test_decode_seReg : decodeWord 0b0101000100100000#16 = .instr (.seReg 1 2) := by decide

theorem test_decode_ldImm : decodeWord 0b0110101000111100#16 = .instr (.ldImm 10 0x3C#8) := by decide

theorem test_decode_addImm : decodeWord 0b0111001000000001#16 = .instr (.addImm 2 0x01#8) := by decide

theorem test_decode_ldReg : decodeWord 0b1000000000010000#16 = .instr (.ldReg 0 1) := by decide

theorem test_decode_or : decodeWord 0b1000000000010001#16 = .instr (.or 0 1) := by decide

theorem test_decode_and : decodeWord 0b1000000000010010#16 = .instr (.and 0 1) := by decide

theorem test_decode_xor : decodeWord 0b1000000000010011#16 = .instr (.xor 0 1) := by decide

theorem test_decode_addReg : decodeWord 0b1000000000010100#16 = .instr (.addReg 0 1) := by decide

theorem test_decode_sub : decodeWord 0b1000000000010101#16 = .instr (.sub 0 1) := by decide

theorem test_decode_shr : decodeWord 0b1000000000010110#16 = .instr (.shr 0 1) := by decide

theorem test_decode_subn : decodeWord 0b1000000000010111#16 = .instr (.subn 0 1) := by decide

theorem test_decode_shl : decodeWord 0b1000000000011110#16 = .instr (.shl 0 1) := by decide

theorem test_decode_sneReg : decodeWord 0b1001000100100000#16 = .instr (.sneReg 1 2) := by decide

theorem test_decode_ldI : decodeWord 0b1010001011110000#16 = .instr (.ldI 0x2F0#12) := by decide

theorem test_decode_jpV0 : decodeWord 0b1011001100000000#16 = .instr (.jpV0 0x300#12) := by decide

theorem test_decode_rnd : decodeWord 0b1100001100001111#16 = .instr (.rnd 3 0x0F#8) := by decide

theorem test_decode_drw : decodeWord 0b1101000100100101#16 = .instr (.drw 1 2 5) := by decide

theorem test_decode_skp : decodeWord 0b1110010110011110#16 = .instr (.skp 5) := by decide

theorem test_decode_sknp : decodeWord 0b1110010110100001#16 = .instr (.sknp 5) := by decide

theorem test_decode_ldVxDT : decodeWord 0b1111001100000111#16 = .instr (.ldVxDT 3) := by decide

theorem test_decode_ldVxK : decodeWord 0b1111001100001010#16 = .instr (.ldVxK 3) := by decide

theorem test_decode_ldDTVx : decodeWord 0b1111001100010101#16 = .instr (.ldDTVx 3) := by decide

theorem test_decode_ldSTVx : decodeWord 0b1111001100011000#16 = .instr (.ldSTVx 3) := by decide

theorem test_decode_addI : decodeWord 0b1111001000011110#16 = .instr (.addI 2) := by decide

theorem test_decode_ldF : decodeWord 0b1111010000101001#16 = .instr (.ldF 4) := by decide

theorem test_decode_ldB : decodeWord 0b1111000000110011#16 = .instr (.ldB 0) := by decide

theorem test_decode_storeRegs : decodeWord 0b1111001001010101#16 = .instr (.storeRegs 2) := by decide

theorem test_decode_loadRegs : decodeWord 0b1111001001100101#16 = .instr (.loadRegs 2) := by decide

theorem test_decode_unknown : decodeWord 0x0000#16 = .unknown ∧ decodeWord 0x0123#16 = .unknown ∧
    decodeWord 0x5121#16 = .unknown ∧ decodeWord 0x8128#16 = .unknown ∧ decodeWord 0x9121#16 = .unknown ∧
    decodeWord 0xE19F#16 = .unknown ∧ decodeWord 0xF1FF#16 = .unknown := by decide

theorem test_decode_bytes : decodeBytes [0xA2#8, 0xF0#8, 0x12#8] = .instr (.ldI 0x2F0#12) [0x12#8] ∧
    decodeBytes [0xA2#8] = .truncated ∧ decodeTableWord 16 0x1234 = some (.jp 0x234#12) := by decide

theorem test_opcode_rows_are_disjoint :
    opcodeMap.Pairwise fun r q => (r.pattern ^^^ q.pattern) &&& r.mask &&& q.mask ≠ 0x0000#16 := by decide

/-! ## Instructions, one step each -/

/-- T1 -/
theorem test_cls :
    runs 0x00E0#16 (light 0 0 (light 63 31 base))
      (fun t => !Framebuffer.get t.fb 0 0 && !Framebuffer.get t.fb 63 31 && t.pc == 0x0202#16) = true := by decide

/-- T13: one erasure among four sets VF -/
theorem test_drw_toggles :
    runs 0xD011#16 (light 3 0 (light 4 0 (poke 0x300#16 0xF0#8 (index 0x0300#16))))
      (fun t => rowOn 0 t == [0, 1, 2, 4] && t.getV 0xF#4 == 0x01#8) = true := by decide

/-- T9: start (63,31), one pixel of 16 is on the screen -/
theorem test_drw_last_pixel :
    runs 0xD012#16 (poke 0x300#16 0xFF#8 (((index 0x0300#16).setV 0 0xFF#8).setV 1 0xFF#8))
      (fun t => rowOn 31 t == [63] && rowOn 0 t == []) = true := by decide

/-- T22: from a full stack, the value not masked -/
theorem test_ret :
    runs 0x00EE#16 (stacked 16 0x1000#16 base) (fun t => t.pc == 0x1000#16 && t.sp == 15) = true := by decide

/-- T21 -/
theorem test_ret_underflow :
    runs 0x00EE#16 base
      (fun t => t.rs == .halted .stackUnderflow && t.fc == ⟨some .stackUnderflow, 0x00EE#16, 0x0200#16⟩ && t.pc == 0x0202#16) = true := by
  decide

/-- T23 -/
theorem test_jp :
    runs 0x1234#16 base (fun t => t.pc == 0x0234#16) = true := by decide

/-- T27 -/
theorem test_call :
    runs 0x2300#16 (startAt 0x0400#16 (stacked 15 0x0000#16 base))
      (fun t => t.pc == 0x0300#16 && t.sp == 16 && t.stk[15] == 0x0402#16) = true := by decide

/-- T28 -/
theorem test_call_overflow :
    runs 0x2300#16 (startAt 0x0400#16 (stacked 16 0x0000#16 base))
      (fun t => t.rs == .halted .stackOverflow && t.fc == ⟨some .stackOverflow, 0x2300#16, 0x0400#16⟩ && t.pc == 0x0402#16) = true := by
  decide

/-- T30, T31 -/
theorem test_seImm :
    runs 0x332A#16 (base.setV 3 0x2A#8) (fun t => t.pc == 0x0204#16) = true ∧
    runs 0x332B#16 (base.setV 3 0x2A#8) (fun t => t.pc == 0x0202#16) = true := by decide

/-- T47: pre-advance and skip wrap modulo 65536 -/
theorem test_seImm_wraps :
    runs 0x3000#16 (startAt 0xFFFE#16 base) (fun t => t.pc == 0x0002#16) = true := by decide

/-- T32, T33 -/
theorem test_sneImm :
    runs 0x432A#16 (base.setV 3 0x2A#8) (fun t => t.pc == 0x0202#16) = true ∧
    runs 0x432B#16 (base.setV 3 0x2A#8) (fun t => t.pc == 0x0204#16) = true := by decide

/-- T35, T36 -/
theorem test_seReg :
    runs 0x5120#16 ((base.setV 1 7).setV 2 7) (fun t => t.pc == 0x0204#16) = true ∧
    runs 0x5120#16 ((base.setV 1 7).setV 2 8) (fun t => t.pc == 0x0202#16) = true := by decide

/-- T38, T39 -/
theorem test_sneReg :
    runs 0x9120#16 ((base.setV 1 7).setV 2 8) (fun t => t.pc == 0x0204#16) = true ∧
    runs 0x9120#16 ((base.setV 1 7).setV 2 7) (fun t => t.pc == 0x0202#16) = true := by decide

/-- T42: above 0xFFF, not masked -/
theorem test_jpV0 :
    runs 0xBFF8#16 (base.setV 0 0x10#8) (fun t => t.pc == 0x1008#16) = true := by decide

/-- T46: PC above 0xFFF, the fetch is masked and PC is not -/
theorem test_ldImm :
    runs 0x6A11#16 (startAt 0x1008#16 base) (fun t => t.getV 0xA#4 == 0x11#8 && t.pc == 0x100A#16) = true := by decide

/-- T48: fetch across the end of memory -/
theorem test_ldImm_across_the_end :
    runs 0x6B22#16 (startAt 0x0FFF#16 base) (fun t => t.getV 0xB#4 == 0x22#8 && t.pc == 0x1001#16) = true := by decide

/-- T62, E4 -/
theorem test_addImm :
    runs 0x7201#16 ((base.setV 2 0xFF#8).setV 0xF 0x07#8) (fun t => t.getV 2 == 0x00#8 && t.getV 0xF == 0x07#8) = true := by
  decide

/-- T66 -/
theorem test_ldReg :
    runs 0x8010#16 (base.setV 1 0x55#8) (fun t => t.getV 0 == 0x55#8 && t.getV 1 == 0x55#8) = true := by decide

/-- T68 -/
theorem test_or :
    runs 0x8011#16 (((base.setV 0 0x0F#8).setV 1 0xF0#8).setV 0xF 0x05#8) (fun t => t.getV 0 == 0xFF#8 && t.getV 0xF == 0x05#8) = true := by
  decide

/-- T69 -/
theorem test_and :
    runs 0x8012#16 (((base.setV 0 0x3C#8).setV 1 0x0F#8).setV 0xF 0x05#8) (fun t => t.getV 0 == 0x0C#8 && t.getV 0xF == 0x05#8) = true := by
  decide

/-- T70 -/
theorem test_xor :
    runs 0x8013#16 (((base.setV 0 0xFF#8).setV 1 0x0F#8).setV 0xF 0x05#8) (fun t => t.getV 0 == 0xF0#8 && t.getV 0xF == 0x05#8) = true := by
  decide

/-- T73, E5 -/
theorem test_addReg :
    runs 0x8014#16 ((base.setV 0 0xF0#8).setV 1 0x20#8) (fun t => t.getV 0 == 0x10#8 && t.getV 0xF == 0x01#8) = true := by
  decide

/-- T80: the sum is lost -/
theorem test_addReg_into_vf :
    runs 0x8F14#16 ((base.setV 0xF 0x02#8).setV 1 0x03#8) (fun t => t.getV 0xF == 0x00#8) = true := by decide

/-- T83, E6 -/
theorem test_sub :
    runs 0x8015#16 ((base.setV 0 0x03#8).setV 1 0x05#8) (fun t => t.getV 0 == 0xFE#8 && t.getV 0xF == 0x00#8) = true := by
  decide

/-- T84: no borrow -/
theorem test_sub_equal :
    runs 0x8015#16 ((base.setV 0 0x07#8).setV 1 0x07#8) (fun t => t.getV 0 == 0x00#8 && t.getV 0xF == 0x01#8) = true := by
  decide

/-- T90: the source is V1 -/
theorem test_shr :
    runs 0x8016#16 ((base.setV 0 0xAA#8).setV 1 0x05#8) (fun t => t.getV 0 == 0x02#8 && t.getV 0xF == 0x01#8) = true := by
  decide

/-- T94: the result stays -/
theorem test_shr_into_vf :
    runs 0x8F16#16 ((base.setV 0xF 0x55#8).setV 1 0x07#8) (fun t => t.getV 0xF == 0x03#8) = true := by decide

/-- T97 -/
theorem test_subn :
    runs 0x8017#16 ((base.setV 0 0x05#8).setV 1 0x03#8) (fun t => t.getV 0 == 0xFE#8 && t.getV 0xF == 0x00#8) = true := by
  decide

/-- T101 -/
theorem test_shl :
    runs 0x801E#16 ((base.setV 0 0xAA#8).setV 1 0x81#8) (fun t => t.getV 0 == 0x02#8 && t.getV 0xF == 0x01#8) = true := by
  decide

/-- T105: the result stays -/
theorem test_shl_into_vf :
    runs 0x8F1E#16 ((base.setV 0xF 0x55#8).setV 1 0x81#8) (fun t => t.getV 0xF == 0x02#8) = true := by decide

/-- T107 -/
theorem test_rnd :
    runs 0xC30F#16 (rand 0xB7#8 (base.setV 3 0xEE#8)) (fun t => t.getV 3 == 0x07#8) = true := by decide

/-- T121 -/
theorem test_ldI :
    runs 0xAFFF#16 (index 0x0123#16) (fun t => t.i == 0x0FFF#16) = true := by decide

/-- T124 -/
theorem test_addI :
    runs 0xF21E#16 ((index 0x0FF0#16).setV 2 0xFF#8) (fun t => t.i == 0x00EF#16 && t.getV 0xF == 0x00#8) = true := by
  decide

/-- T128: only the low nibble counts -/
theorem test_ldF :
    runs 0xF429#16 (base.setV 4 0x1A#8) (fun t => t.i == 0x0032#16) = true := by decide

/-- T136: 123 across the end of memory -/
theorem test_ldB :
    runs 0xF733#16 ((index 0x0FFE#16).setV 7 0x7B#8)
      (fun t => t.mem.cell 0xFFE == 0x01#8 && t.mem.cell 0xFFF == 0x02#8 && t.mem.cell 0x000 == 0x03#8 && t.i == 0x0FFE#16) = true := by
  decide

/-- T137 -/
theorem test_storeRegs :
    runs 0xF255#16 ((((index 0x0400#16).setV 0 0x11#8).setV 2 0x33#8).setV 3 0x44#8)
      (fun t => t.mem.cell 0x400 == 0x11#8 && t.mem.cell 0x402 == 0x33#8 && t.mem.cell 0x403 == 0x00#8 && t.i == 0x0400#16) = true := by
  decide

/-- T144: a later fetch sees the stored bytes -/
theorem test_storeRegs_own_word :
    runs 0xF155#16 (((index 0x0200#16).setV 0 0x12#8).setV 1 0x34#8)
      (fun t => decodeWord (State.fetch { t with pc := 0x0200#16 }) == .instr (.jp 0x234#12)) = true := by decide

/-- T142: wrapping into the font -/
theorem test_loadRegs :
    runs 0xFF65#16 (poke 0xFFF#16 0xB7#8 (index 0x0FF8#16))
      (fun t => t.getV 7 == 0xB7#8 && t.getV 8 == 0xF0#8 && t.getV 0xF == 0x20#8) = true := by decide

/-- T140: V3 keeps its value -/
theorem test_loadRegs_inclusive :
    runs 0xF265#16 (poke 0x402#16 0x33#8 (poke 0x403#16 0x44#8 ((index 0x0400#16).setV 3 0x99#8)))
      (fun t => t.getV 2 == 0x33#8 && t.getV 3 == 0x99#8) = true := by decide

/-- T161, T162: 0x17 selects key 7 -/
theorem test_skp :
    runs 0xE59E#16 (keys 0xFF7F#16 (base.setV 5 0x07#8)) (fun t => t.pc == 0x0202#16) = true ∧
    runs 0xE59E#16 (keys 0x0080#16 (base.setV 5 0x17#8)) (fun t => t.pc == 0x0204#16) = true := by decide

/-- T164, T165 -/
theorem test_sknp :
    runs 0xE5A1#16 (keys 0x0080#16 (base.setV 5 0x07#8)) (fun t => t.pc == 0x0202#16) = true ∧
    runs 0xE5A1#16 (keys 0xFF7F#16 (base.setV 5 0x07#8)) (fun t => t.pc == 0x0204#16) = true := by decide

/-- T168 -/
theorem test_ldVxDT :
    runs 0xF307#16 ({ base with dt := 0x1E#8 }.setV 3 0x99#8) (fun t => t.getV 3 == 0x1E#8 && t.dt == 0x1E#8) = true := by
  decide

/-- T176: the executing step does not use the release -/
theorem test_ldVxK :
    runs 0xF30A#16 (krel (some 5) base) (fun t => t.rs == .waitingForKey 3 && t.pc == 0x0200#16) = true := by decide

/-- T171 -/
theorem test_ldDTVx :
    runs 0xF315#16 ({ base with dt := 0x05#8 }.setV 3 0x3C#8) (fun t => t.dt == 0x3C#8 && t.st == 0x00#8) = true := by
  decide

/-- T173 -/
theorem test_ldSTVx :
    runs 0xF318#16 (base.setV 3 0x05#8) (fun t => t.st == 0x05#8 && t.tone && t.dt == 0x00#8) = true := by decide

/-! ## The other steps -/

/-- P4a -/
theorem test_unknown_word :
    stepTo base
      (fun t => t.rs == .halted .unknownOpcode && t.fc == ⟨some .unknownOpcode, 0x0000#16, 0x0200#16⟩ && t.pc == 0x0202#16) = true := by
  decide

/-- T179: target VF, key 0 -/
theorem test_key_poll :
    stepTo (krel (some 0) (waiting 0xF (base.setV 0xF 0x77#8)))
      (fun t => t.getV 0xF == 0x00#8 && t.pc == 0x0202#16 && t.rs == .running) = true := by decide

/-- T180: held keys do not end the wait -/
theorem test_key_poll_without_a_release :
    stepTo (keys 0xFFFF#16 (waiting 3 base))
      (fun t => t.pc == 0x0200#16 && t.rs == .waitingForKey 3) = true := by decide

/-- T190 for `ST`: 0 stays 0; E9 for `DT` -/
theorem test_timer_tick :
    stepTo (agent .timer { base with dt := 0x05#8 })
      (fun t => t.dt == 0x04#8 && t.st == 0x00#8 && t.pc == 0x0200#16) = true := by decide

/-- The host's placing of a word runs it as the very next step, from reset. -/
theorem test_withFetchWord :
    stepTo (State.reset.withFetchWord 16 0x6A3C) (fun t => t.getV 0xA#4 == 0x3C#8 && t.pc == 0x0202#16) = true := by
  decide

/-- From `Halted` there is no step (50_execution_cycle.md section 7). -/
theorem test_halted_has_no_step : step { base with rs := .halted .unknownOpcode } = .fault (.halted .unknownOpcode) := rfl

/-- E2: byte `i` of the image is at `0x200 + i`. -/
theorem test_host_reset : (hostReset [0x12#8, 0x34#8]).toOption.map (fun s => (s.mem.cell 0x200, s.mem.cell 0x201, s.mem.cell 0x202)) =
    some (0x12#8, 0x34#8, 0x00#8) := by decide

/-- The font's last glyph is at 0x04B (20_memory.md section 1, the default table of D5), and RAM begins at 0x050. -/
theorem test_font_place : State.reset.mem.cell 0x04B = 0xF0#8 ∧ State.reset.mem.cell 0x04F = 0x80#8 ∧
    State.reset.mem.cell 0x050 = 0x00#8 := by decide

/-! ## Witnesses: for every statement with hypotheses, states and operands that meet all of them together -/

theorem witness_HostResetMeetsTheLaunchPremises :
    ([] : List Byte).length ≤ 3584 ∧ (List.replicate 3584 0xFF#8).length ≤ 3584 := by simp only [List.length_replicate, List.length_nil]; decide

/-- Both sides of the length test: 3585 bytes are refused, 3584 are not. -/
theorem witness_RomIsRefusedExactlyWhenTooLarge :
    hostReset (List.replicate 3585 0xFF#8) = .error .romTooLarge ∧
      3584 < (List.replicate 3585 0xFF#8).length ∧ ¬3584 < (List.replicate 3584 0xFF#8).length := by
  simp only [hostReset, List.length_replicate]
  exact ⟨rfl, by decide, by decide⟩

theorem witness_CanonicalMemoriesThatReadAlikeAreEqual :
    ∃ m m' : Memory, m.wf ∧ m'.wf ∧ (∀ a : Word, m.read a = m'.read a) ∧ m ≠ [] :=
  ⟨Memory.write (Memory.write [] 0x000#16 0x01#8) 0xFFF#16 0x02#8,
    Memory.write (Memory.write [] 0xFFF#16 0x02#8) 0x000#16 0x01#8, by decide, by decide, fun _ => rfl, by decide⟩

theorem witness_EncodeOfDecodeIsTheWord : decodeWord 0x1FFF#16 = .instr (.jp 0xFFF#12) := by decide

/-- Each row of the opcode map at the lowest and at the highest word it covers. -/
theorem witness_EveryRowOfTheOpcodeMapDecodes :
    ∀ r ∈ opcodeMap, r.covers r.pattern = true ∧ r.covers (r.pattern ||| ~~~r.mask) = true := by decide

/-- The first and the last unknown word of each family with some. -/
theorem witness_UnknownWordsAreExactlyTheTable :
    ([0x0000#16, 0x0FFF#16, 0x5001#16, 0x5FFF#16, 0x8008#16, 0x8FFF#16, 0x9001#16, 0x9FFF#16, 0xE000#16, 0xEFFF#16,
      0xF000#16, 0xFFFF#16].all fun w => decodeWord w == .unknown) = true := by decide

theorem witness_StepRunsTheDecodedInstruction :
    let s := placed 0x6A3C#16 base
    s.rs = .running ∧ s.turn.agent = .core ∧ decodeWord s.fetch = .instr (.ldImm 0xA#4 0x3C#8) ∧
      exec (.ldImm 0xA#4 0x3C#8) { s with pc := s.pc + 2 } = .next ({ s with pc := s.pc + 2 }.setV 0xA#4 0x3C#8) :=
  ⟨rfl, rfl, by decide, rfl⟩

theorem witness_UnknownWordHalts :
    base.rs = .running ∧ base.turn.agent = .core ∧ decodeWord base.fetch = .unknown := by decide

/-- Running and waiting, with timers at rest and not. -/
theorem witness_TimerTickCountsBothTimersDown :
    ((∀ c, (agent .timer base).rs ≠ .halted c) ∧ (agent .timer base).turn.agent = .timer) ∧
    ((∀ c, (agent .timer (waiting 3 { base with dt := 0xFF#8 })).rs ≠ .halted c) ∧
      (agent .timer (waiting 3 { base with dt := 0xFF#8 })).turn.agent = .timer) :=
  ⟨⟨(by intro c h; cases h), rfl⟩, (by intro c h; cases h), rfl⟩

theorem witness_RefreshChangesNothing :
    (∀ c, (agent .refresh base).rs ≠ .halted c) ∧ (agent .refresh base).turn.agent = .refresh :=
  ⟨(by intro c h; cases h), rfl⟩

/-- Both clauses: the first and the last key, and no release. -/
theorem witness_KeyPollEndsTheWaitOnARelease :
    (∀ k, (krel k (waiting 0xF base)).rs = .waitingForKey 0xF ∧ (krel k (waiting 0xF base)).turn.agent = .core) ∧
    (krel (some 0x0) (waiting 0xF base)).turn.krel = some 0x0 ∧
    (krel (some 0xF) (waiting 0xF base)).turn.krel = some 0xF ∧ (krel none (waiting 0xF base)).turn.krel = none :=
  ⟨fun _ => ⟨rfl, rfl⟩, rfl, rfl, rfl⟩

/-- Two turns without a release pass, a third turn with one stays. -/
theorem witness_KeyWaitLastsUntilARelease :
    let ts := [{ coreTurn with agent := .timer, krel := some 2 }, coreTurn]
    let rest := [{ coreTurn with krel := some 5 }]
    let s := { waiting 3 base with turns := ts ++ rest }
    s.rs = .waitingForKey 3 ∧ s.turns = ts ++ rest ∧ ∀ t ∈ ts, t.agent = .core → t.krel = none := by decide

theorem witness_SelfJumpParks :
    let s := placed 0x1200#16 base
    s.rs = .running ∧ s.turn.agent = .core ∧ decodeWord s.fetch = .instr (.jp 0x200#12) ∧
      s.pc = (0x200#12).setWidth 16 := by decide

/-- The four clauses, at the last pixel of the screen: (63, 31) lies under a sprite bit 1, (62, 31) is left of the sprite.
From `lit` the draw turns (63, 31) off; from `dark`, where no pixel is on, none can go off. -/
theorem witness_DrwTogglesTheSpritePixels :
    let dark := poke 0x300#16 0x80#8 (((index 0x0300#16).setV 0 0x3F#8).setV 1 0x1F#8)
    let lit := light 63 31 dark
    ((dark.getV 0).toNat % 64 ≤ 63 ∧ 63 < (dark.getV 0).toNat % 64 + 8 ∧
      (dark.getV 1).toNat % 32 ≤ 31 ∧ 31 < (dark.getV 1).toNat % 32 + (1#4).toNat ∧
      (dark.mem.cell ((dark.i.toNat + (31 - (dark.getV 1).toNat % 32)) % 4096)).getLsbD
        (7 - (63 - (dark.getV 0).toNat % 64)) = true) ∧
    ¬(dark.getV 0).toNat % 64 ≤ 62 ∧
    (∃ t, exec (.drw 0 1 1) lit = .next t ∧ Framebuffer.get lit.fb 63 31 = true ∧ Framebuffer.get t.fb 63 31 = false) ∧
    ∃ t, exec (.drw 0 1 1) dark = .next t ∧
      ¬∃ px py, Framebuffer.get dark.fb px py = true ∧ Framebuffer.get t.fb px py = false := by
  refine ⟨by decide, by decide, ⟨_, rfl, by decide, by decide⟩, _, rfl, ?_⟩
  rintro ⟨px, py, on, -⟩
  exact Bool.false_ne_true ((Framebuffer.get_clear px py).symm.trans on)

theorem witness_DrawingTwiceRestoresTheFramebuffer : (0xE#4 : Nibble) ≠ 0xF#4 ∧ (0x0#4 : Nibble) ≠ 0xF#4 := by decide

/-- One live entry, and sixteen. -/
theorem witness_RetPopsTheReturnAddress :
    (stacked 1 0x0202#16 base).sp.val = 0 + 1 ∧ (stacked 16 0x0202#16 base).sp.val = 15 + 1 := by decide

/-- No live entry, and fifteen. -/
theorem witness_CallPushesTheReturnAddress : base.sp.val = 0 ∧ (stacked 15 0x0202#16 base).sp.val = 15 := by decide

theorem witness_StackFaultsHaltWithoutEffect : base.sp.val = 0 ∧ (stacked 16 0x0202#16 base).sp.val = 16 := by decide

theorem witness_CallThenRetRestoresThePc : base.sp.val < 16 ∧ (stacked 15 0x0202#16 base).sp.val < 16 := by decide

/-- `X` is not `0xF`, and a register that is neither. -/
theorem witness_AddAndSubtractSetVfLast :
    (0x0#4 : Nibble) ≠ 0xF#4 ∧ (0x1#4 : Nibble) ≠ 0x0#4 ∧ (0x1#4 : Nibble) ≠ 0xF#4 := by decide

theorem witness_ShiftsReadVyAndSetVfFirst :
    (0xE#4 : Nibble) ≠ 0xF#4 ∧ (0x1#4 : Nibble) ≠ 0xE#4 ∧ (0x1#4 : Nibble) ≠ 0xF#4 := by decide

/-- The addresses just outside the three bytes, `I` at the end of memory. -/
theorem witness_DecimalDigitsAreStoredAtI :
    (∀ r, r < 3 → busAddr 0x0FFE#16 ≠ busAddr (dataAddr (index 0x0FFF#16).i r)) ∧
    ∀ r, r < 3 → busAddr 0x0002#16 ≠ busAddr (dataAddr (index 0x0FFF#16).i r) := by decide

/-- The first and the last register stored, and the addresses just outside the bytes. -/
theorem witness_StoreRegistersWritesV0ToVx :
    (0x0#4 : Nibble).toNat ≤ (0xF#4 : Nibble).toNat ∧ (0xF#4 : Nibble).toNat ≤ (0xF#4 : Nibble).toNat ∧
    (∀ r, r ≤ (0xF#4 : Nibble).toNat → busAddr 0x0FF7#16 ≠ busAddr (dataAddr (index 0x0FF8#16).i r)) ∧
    ∀ r, r ≤ (0xF#4 : Nibble).toNat → busAddr 0x0008#16 ≠ busAddr (dataAddr (index 0x0FF8#16).i r) := by decide

/-- The last register loaded, and the first one kept. -/
theorem witness_LoadRegistersReadsV0ToVx :
    (0x2#4 : Nibble).toNat ≤ (0x2#4 : Nibble).toNat ∧ (0x2#4 : Nibble).toNat < (0x3#4 : Nibble).toNat := by decide

theorem witness_OnlyTheStoresChangeMemory :
    (∃ t, exec (.loadRegs 0xF#4) base = .next t) ∧ (∀ x, Instr.loadRegs 0xF#4 ≠ .ldB x) ∧
      ∀ x, Instr.loadRegs 0xF#4 ≠ .storeRegs x :=
  ⟨⟨_, rfl⟩, by simp, by simp⟩

/-- A register next to the last one loaded, and one next to the destination and the flag. -/
theorem witness_RegistersChangeOnlyWhereTheTableSays :
    ((∃ t, exec (.loadRegs 0x2#4) base = .next t) ∧ ¬MayWriteV (.loadRegs 0x2#4) 0x3#4) ∧
    ((∃ t, exec (.addReg 0x1#4 0x2#4) base = .next t) ∧ ¬MayWriteV (.addReg 0x1#4 0x2#4) 0x2#4) :=
  ⟨⟨⟨_, rfl⟩, by simp [MayWriteV]⟩, ⟨_, rfl⟩, by simp [MayWriteV]⟩

/-- One instruction that meets the hypotheses of every clause at once. -/
theorem witness_SystemStateChangesOnlyByItsInstructions :
    let i := Instr.ldImm 0x1#4 0x02#8
    (∃ t, exec i base = .next t) ∧ (∀ a, i ≠ .ldI a) ∧ (∀ x, i ≠ .addI x) ∧ (∀ x, i ≠ .ldF x) ∧ (∀ x, i ≠ .ldDTVx x) ∧
      (∀ x, i ≠ .ldSTVx x) ∧ i ≠ .cls ∧ (∀ x y n, i ≠ .drw x y n) ∧ i ≠ .ret ∧ (∀ a, i ≠ .call a) ∧
      (∀ x, i ≠ .ldVxK x) ∧ (∀ a, i ≠ .jp a) ∧ (∀ a, i ≠ .jpV0 a) ∧ (∀ x nn, i ≠ .seImm x nn) ∧
      (∀ x nn, i ≠ .sneImm x nn) ∧ (∀ x y, i ≠ .seReg x y) ∧ (∀ x y, i ≠ .sneReg x y) ∧ (∀ x, i ≠ .skp x) ∧
      (∀ x, i ≠ .sknp x) :=
  ⟨⟨_, rfl⟩, by simp⟩

theorem base_Inv : base.Inv :=
  ⟨by decide, by decide, by intro c; simp [base, State.reset], by simp [base, State.reset]⟩

theorem witness_EveryStepKeepsTheInvariant : base.Inv ∧ ∃ t, step base = .next t := ⟨base_Inv, _, rfl⟩

/-- A machine that waits at its `FX0A`. -/
theorem witness_EveryStepKeepsTheWaitAtItsInstruction :
    let s := waiting 3 (placed 0xF30A#16 base)
    s.WaitsAtInstr ∧ s.rs = .waitingForKey 3 ∧ ∃ t, step s = .next t := by
  refine ⟨?_, rfl, _, rfl⟩
  intro x h
  cases h
  decide

/-- Each clause: a step that begins the wait, one that ends it, one that does not, and one that halts by each cause. -/
theorem witness_RunStateChangesInThreeWays :
    runs 0xF30A#16 base (fun t => t.rs == .waitingForKey 3) = true ∧
    stepTo (krel (some 0) (waiting 3 base)) (fun t => t.rs == .running) = true ∧
    stepTo (krel none (waiting 3 base)) (fun t => t.rs == .waitingForKey 3) = true ∧
    stepTo base (fun t => t.rs == .halted .unknownOpcode) = true ∧
    runs 0x2300#16 (stacked 16 0x0000#16 base) (fun t => t.rs == .halted .stackOverflow) = true ∧
    runs 0x00EE#16 base (fun t => t.rs == .halted .stackUnderflow) = true := by decide

/-- Each cause that is ever raised. -/
theorem witness_AFaultHasItsCauseAndChangesNothingElse :
    (base.rs = .running ∧ ∃ t, step base = .next t ∧ t.rs = .halted .unknownOpcode) ∧
    (∃ t, step (placed 0x2300#16 (stacked 16 0x0000#16 base)) = .next t ∧ t.rs = .halted .stackOverflow) ∧
    ∃ t, step (placed 0x00EE#16 base) = .next t ∧ t.rs = .halted .stackUnderflow :=
  ⟨⟨rfl, _, rfl, rfl⟩, ⟨_, rfl, rfl⟩, _, rfl, rfl⟩

theorem witness_OnlyThreeInstructionsReadAnInput :
    (∀ x nn, Instr.ldVxK 0x3#4 ≠ .rnd x nn) ∧ (∀ x, Instr.ldVxK 0x3#4 ≠ .skp x) ∧ ∀ x, Instr.ldVxK 0x3#4 ≠ .sknp x := by
  simp

theorem witness_TimerTicksCommuteWithOtherInstructions :
    (∀ x, Instr.ret ≠ .ldVxDT x) ∧ (∀ x, Instr.ret ≠ .ldDTVx x) ∧ ∀ x, Instr.ret ≠ .ldSTVx x := by simp

/-- The rising edge, and both falling ones. -/
theorem witness_ToneEdgesAreFx18OrTheLastTick :
    ((base.setV 3 0x01#8).tone = false ∧ runs 0xF318#16 (base.setV 3 0x01#8) (fun t => t.tone) = true) ∧
    (State.tone { base with st := 0x01#8 } = true ∧
      stepTo (agent .timer { base with st := 0x01#8 }) (fun t => !t.tone) = true) ∧
    (State.tone { base with st := 0x09#8 } = true ∧
      runs 0xF318#16 { base with st := 0x09#8 } (fun t => !t.tone) = true) := by decide

end Sys2Proof.Tests
end

section
/-! PROOF. The memory primitives (rule R64) and the big-endian fetch (rule R65). -/

namespace Sys2Proof.Machine

/-! The nibbles of a word made of two bytes (rule R65). -/

@[simp] theorem opOf_append (hi lo : Byte) : opOf (hi ++ lo) = hi.extractLsb' 4 4 :=
  BitVec.extractLsb'_append_eq_of_le (by decide)

@[simp] theorem xOf_append (hi lo : Byte) : xOf (hi ++ lo) = hi.extractLsb' 0 4 :=
  BitVec.extractLsb'_append_eq_of_le (by decide)

@[simp] theorem yOf_append (hi lo : Byte) : yOf (hi ++ lo) = lo.extractLsb' 4 4 :=
  BitVec.extractLsb'_append_eq_of_add_le (by decide)

@[simp] theorem nOf_append (hi lo : Byte) : nOf (hi ++ lo) = lo.extractLsb' 0 4 :=
  BitVec.extractLsb'_append_eq_of_add_le (by decide)

/-! What the reads of the memory are made of (rules R63, R64). -/

theorem Memory.read_eq_cell (m : Memory) (a : Word) : m.read a = m.cell (a &&& 0x0FFF#16).toNat := rfl

theorem Memory.readWord_eq_append (m : Memory) (a : Word) : m.readWord a = m.read a ++ m.read (a + 1) := rfl

theorem State.fetch_eq_append (s : State) : s.fetch = s.mem.read s.pc ++ s.mem.read (s.pc + 1) :=
  s.mem.readWord_eq_append s.pc

/-- Settles O4: the reads are the masked cells, and the write is the rule `Memory.read_write`, its test for one address
of the bus being the test for equal masked addresses. -/
theorem memoryPrimitivesReadWhatWasWritten : Obligations.MemoryPrimitivesReadWhatWasWritten := by
  intro m a a' b
  refine ⟨m.read_eq_cell a, ?_, ?_⟩
  · rw [Memory.readWord_eq_append, Memory.read_eq_cell, Memory.read_eq_cell]
  · simp only [Memory.read_write, busAddr_inj]

/-- Settles O5: the fetched word is the byte at `PC` followed by the byte at `PC + 1`, and the nibbles of two appended
bytes are theirs. -/
theorem fetchIsBigEndian : Obligations.FetchIsBigEndian := by
  intro s
  rw [State.fetch_eq_append]
  exact ⟨opOf_append _ _, xOf_append _ _, yOf_append _ _, nOf_append _ _⟩

end Sys2Proof.Machine
end

section
/-! PROOF. The display instruction `00E0` (rule R120). -/

namespace Sys2Proof.Machine

/-- What `00E0` answers: the state with its framebuffer cleared (rule R120). -/
theorem exec_cls (s : State) : exec .cls s = .next { s with fb := Framebuffer.clear } := rfl

/-- Settles O21: the answer is the state with the cleared framebuffer, whose pixels are read by `Framebuffer.get_clear`
and whose other fields are the old ones. -/
theorem clsTurnsEveryPixelOff : Obligations.ClsTurnsEveryPixelOff := by
  have word : encode .cls = 0x00E0#16 := rfl
  exact ⟨word, fun s => ⟨_, exec_cls s, Framebuffer.get_clear, rfl⟩⟩

end Sys2Proof.Machine
end

section
/-! PROOF. The jumps `1NNN` (rule R131) and `BNNN` (rule R137). -/

namespace Sys2Proof.Machine

/-! The words of the jumps (format `A`) and what they answer. -/

theorem encode_jp (nnn : Addr12) : encode (.jp nnn) = 0x1000#16 ||| nnn.setWidth 16 := formatA_eq_or 0x1#4 nnn

theorem encode_jpV0 (nnn : Addr12) : encode (.jpV0 nnn) = 0xB000#16 ||| nnn.setWidth 16 := formatA_eq_or 0xB#4 nnn

theorem exec_jp (nnn : Addr12) (s : State) : exec (.jp nnn) s = .next { s with pc := nnnTarget nnn } := rfl

theorem exec_jpV0 (nnn : Addr12) (s : State) :
    exec (.jpV0 nnn) s = .next { s with pc := offsetTarget (s.getV 0x0#4) nnn } := rfl

/-- The 16-bit sum of a byte and a 12-bit address never wraps (rule R137). -/
theorem toNat_offsetTarget (v0 : Byte) (nnn : Addr12) : (offsetTarget v0 nnn).toNat = v0.toNat + nnn.toNat := by
  have noWrap : v0.toNat + nnn.toNat < 2 ^ 16 := by omega
  rw [offsetTarget, BitVec.toNat_add, toNat_setWidth_low v0 (by decide), toNat_setWidth_low nnn (by decide),
    Nat.mod_eq_of_lt noWrap]

/-- The greatest target of `BNNN` is `0x00FF + 0x0FFF` (rule R137). -/
theorem toNat_offsetTarget_le (v0 : Byte) (nnn : Addr12) : (offsetTarget v0 nnn).toNat ≤ 0x10FE := by
  rw [toNat_offsetTarget]
  omega

/-- Settles O24: `nnnTarget` is the zero extension of the operand, and the word is format `A` as an or of its fields. -/
theorem jpSetsThePc : Obligations.JpSetsThePc := fun nnn s => ⟨encode_jp nnn, exec_jp nnn s⟩

/-- Settles O31: the target is `offsetTarget`, whose sum does not wrap and has the stated bound. -/
theorem jpV0AddsV0WithoutAMask : Obligations.JpV0AddsV0WithoutAMask := fun nnn s =>
  ⟨encode_jpV0 nnn, _, exec_jpV0 nnn s, toNat_offsetTarget _ nnn, toNat_offsetTarget_le _ nnn, rfl⟩

end Sys2Proof.Machine
end

section
/-! PROOF. The register loads `6XNN`, `8XY0` and the immediate addition `7XNN` (rules R150 to R152). -/

namespace Sys2Proof.Machine

/-- Writing one register is the frame `OnlyRegister` (rules R9, R10). -/
theorem onlyRegister_setV (s : State) (x : Nibble) (b : Byte) : OnlyRegister s (s.setV x b) x b :=
  ⟨State.getV_setV_self s x b, fun _ other => State.getV_setV_of_ne s b other, rfl⟩

/-! The words of the three instructions (formats `I` and `D`) and what they answer. -/

theorem formatD_zero_eq_or (op x y : Nibble) :
    formatD op x y 0x0#4 = op.setWidth 16 <<< 12 ||| x.setWidth 16 <<< 8 ||| y.setWidth 16 <<< 4 := by
  rw [formatD_eq_or, BitVec.setWidth_zero, BitVec.or_zero]

theorem encode_ldImm (x : Nibble) (nn : Byte) :
    encode (.ldImm x nn) = 0x6000#16 ||| x.setWidth 16 <<< 8 ||| nn.setWidth 16 := formatI_eq_or 0x6#4 x nn

theorem encode_addImm (x : Nibble) (nn : Byte) :
    encode (.addImm x nn) = 0x7000#16 ||| x.setWidth 16 <<< 8 ||| nn.setWidth 16 := formatI_eq_or 0x7#4 x nn

theorem encode_ldReg (x y : Nibble) :
    encode (.ldReg x y) = 0x8000#16 ||| x.setWidth 16 <<< 8 ||| y.setWidth 16 <<< 4 := formatD_zero_eq_or 0x8#4 x y

theorem exec_ldImm (x : Nibble) (nn : Byte) (s : State) : exec (.ldImm x nn) s = .next (s.setV x nn) := rfl

theorem exec_addImm (x : Nibble) (nn : Byte) (s : State) :
    exec (.addImm x nn) s = .next (s.setV x (s.getV x + nn)) := rfl

theorem exec_ldReg (x y : Nibble) (s : State) : exec (.ldReg x y) s = .next (s.setV x (s.getV y)) := rfl

/-- Settles O32: each load answers the write of one register, of `NN` or of the old `V[Y]`. -/
theorem registerLoadsWriteVx : Obligations.RegisterLoadsWriteVx := fun x y nn s =>
  ⟨encode_ldImm x nn, encode_ldReg x y,
    ⟨_, exec_ldImm x nn s, onlyRegister_setV s x nn⟩,
    ⟨_, exec_ldReg x y s, onlyRegister_setV s x (s.getV y)⟩⟩

/-- Settles O33: the answer writes the sum of two bytes to `V[X]` alone, and that sum is modulo `2 ^ 8`. -/
theorem addImmediateWrapsWithoutAFlag : Obligations.AddImmediateWrapsWithoutAFlag := fun x nn s =>
  ⟨encode_addImm x nn, _, _, exec_addImm x nn s, onlyRegister_setV s x _, BitVec.toNat_add (s.getV x) nn⟩

end Sys2Proof.Machine
end

section
/-! PROOF. The loads of `I`: `ANNN` (rule R180) and `FX29` (rule R182). -/

namespace Sys2Proof.Machine

/-- Format `S` (rule R91): the word with `X = 0`, which holds the opcode and the function code, or-ed with `X`. -/
theorem formatI_eq_code_or (op x : Nibble) (nn : Byte) :
    formatI op x nn = formatI op 0x0#4 nn ||| x.setWidth 16 <<< 8 := by
  rw [formatI_eq_or, formatI_eq_or op 0x0#4, BitVec.setWidth_zero, BitVec.zero_shiftLeft, BitVec.or_zero,
    BitVec.or_assoc, BitVec.or_assoc, BitVec.or_comm (x.setWidth 16 <<< 8)]

theorem encode_ldI (nnn : Addr12) : encode (.ldI nnn) = 0xA000#16 ||| nnn.setWidth 16 := formatA_eq_or 0xA#4 nnn

theorem encode_ldF (x : Nibble) : encode (.ldF x) = 0xF029#16 ||| x.setWidth 16 <<< 8 :=
  formatI_eq_code_or 0xF#4 x 0x29#8

theorem exec_ldI (nnn : Addr12) (s : State) : exec (.ldI nnn) s = .next { s with i := nnnTarget nnn } := rfl

theorem exec_ldF (x : Nibble) (s : State) : exec (.ldF x) s = .next { s with i := glyphAddr (s.getV x) } := rfl

@[simp] theorem toNat_lowNibble (b : Byte) : (lowNibble b).toNat = b.toNat % 16 :=
  (BitVec.extractLsb'_toNat 0 4 b).trans (by rw [Nat.shiftRight_zero])

/-- The font starts at address 0 and the greatest glyph address is `15 * 5`, so neither the sum nor the product wraps
(rule R182). -/
theorem toNat_glyphAddr (b : Byte) : (glyphAddr b).toNat = b.toNat % 16 * 5 := by
  have fontAtZero : BitVec.ofNat 16 Config.fontBase = 0#16 := rfl
  have noWrap : b.toNat % 16 * 5 < 2 ^ 16 := by omega
  rw [glyphAddr, fontAtZero, BitVec.zero_add, BitVec.toNat_mul, toNat_setWidth_low _ (by decide), toNat_lowNibble]
  exact Nat.mod_eq_of_lt noWrap

/-- Settles O38: `nnnTarget` is the zero extension of the operand, and `glyphAddr` is five times the low nibble. -/
theorem indexLoadsSetI : Obligations.IndexLoadsSetI := fun nnn x s =>
  ⟨encode_ldI nnn, encode_ldF x, exec_ldI nnn s, _, exec_ldF x s, toNat_glyphAddr (s.getV x), rfl⟩

end Sys2Proof.Machine
end

section
/-! PROOF. The timer's turn (rule R224). -/

namespace Sys2Proof.Machine

/-- Off `Halted`, the agent of the turn steps and the turn is over (rule R226). -/
theorem step_of_not_halted {s : State} (live : ∀ c, s.rs ≠ .halted c) :
    step s = mapNext State.endTurn (agentStep s.turn.agent s) := by
  unfold step takeTurn
  cases hrs : s.rs with
  | running => rfl
  | waitingForKey x => rfl
  | halted c => exact absurd hrs (live c)

/-- The timer's turn answers one tick, in `Running` and in `WaitingForKey` (rule R224). -/
theorem step_timer {s : State} (live : ∀ c, s.rs ≠ .halted c) (timer : s.turn.agent = .timer) :
    step s = .next (timerTick s).endTurn := by
  rw [step_of_not_halted live, timer, agentStep, mapNext]

/-- Settles O15: the step is `timerTick`, which writes `countDown` of each timer and no other field. -/
theorem timerTickCountsBothTimersDown : Obligations.TimerTickCountsBothTimersDown := fun s live timer =>
  ⟨(timerTick s).endTurn, step_timer live timer, countDown_toNat s.dt, countDown_toNat s.st, rfl⟩

end Sys2Proof.Machine
end

section
/-! PROOF. The decoder and the encoder are inverse to each other (rules R91 to R96): a word decodes to an instruction
exactly where it is the instruction's own word, and every other word is `Unknown`. -/

namespace Sys2Proof

theorem eq_ofNat_of_toNat {n k : Nat} {b : BitVec n} (h : b.toNat = k) : b = BitVec.ofNat n k := by
  rw [← h, BitVec.ofNat_toNat, BitVec.setWidth_eq]

/-! The families `8`, `E`, `F` by their function codes (rules R94, R95). -/

/-- A function code that family `8` decodes is the last digit of the instruction's word. -/
theorem encode_of_decodeAlu {x y n : Nibble} {i : Instr} (h : decodeAlu x y n = .instr i) :
    encode i = formatD 0x8#4 x y n := by
  unfold decodeAlu at h
  split at h
  case h_10 => cases h
  all_goals
    next code =>
      cases h
      rw [eq_ofNat_of_toNat code]
      rfl

/-- A function code that family `E` decodes is the low byte of the instruction's word. -/
theorem encode_of_decodeKey {x : Nibble} {nn : Byte} {i : Instr} (h : decodeKey x nn = .instr i) :
    encode i = formatI 0xE#4 x nn := by
  unfold decodeKey at h
  split at h
  case h_3 => cases h
  all_goals
    next code =>
      cases h
      rw [eq_ofNat_of_toNat code]
      rfl

/-- A function code that family `F` decodes is the low byte of the instruction's word. -/
theorem encode_of_decodeMisc {x : Nibble} {nn : Byte} {i : Instr} (h : decodeMisc x nn = .instr i) :
    encode i = formatI 0xF#4 x nn := by
  unfold decodeMisc at h
  split at h
  case h_10 => cases h
  all_goals
    next code =>
      cases h
      rw [eq_ofNat_of_toNat code]
      rfl

/-- A word that decodes is put together again from its fields, whose fixed digits the decoder compared. -/
theorem encode_of_decodeWord {w : Word} {i : Instr} (h : decodeWord w = .instr i) : encode i = w := by
  have op {k : Nat} (digit : (opOf w).toNat = k) : opOf w = BitVec.ofNat 4 k := eq_ofNat_of_toNat digit
  have a := formatA_fields w
  have b := formatI_fields w
  have d := formatD_fields w
  unfold decodeWord at h
  split at h
  case h_1 =>
    split at h
    · next cls => cases h; exact cls.symm
    · split at h
      · next ret => cases h; exact ret.symm
      · cases h
  case h_2 digit | h_3 digit | h_11 digit | h_12 digit =>
    rw [op digit] at a
    cases h
    exact a
  case h_4 digit | h_5 digit | h_7 digit | h_8 digit | h_13 digit =>
    rw [op digit] at b
    cases h
    exact b
  case h_6 digit | h_10 digit =>
    split at h
    · next n =>
      rw [op digit, n] at d
      cases h
      exact d
    · cases h
  case h_9 digit =>
    rw [op digit] at d
    exact (encode_of_decodeAlu h).trans d
  case h_14 digit =>
    rw [op digit] at d
    cases h
    exact d
  case h_15 digit =>
    rw [op digit] at b
    exact (encode_of_decodeKey h).trans b
  case h_16 =>
    have digit : (opOf w).toNat = 15 := by
      have := (opOf w).isLt
      simp only [imp_false] at *
      omega
    rw [op digit] at b
    exact (encode_of_decodeMisc h).trans b

/-- The fields of an instruction's word are its opcode, its operands and its function code, so the decoder finds its row
again. -/
theorem decodeWord_encode (i : Instr) : decodeWord (encode i) = .instr i := by
  cases i with
  | cls | ret => rfl
  | jp nnn | call nnn | ldI nnn | jpV0 nnn => simp [encode, decodeWord, opOf_formatA, nnnOf_formatA]
  | seImm x nn | sneImm x nn | ldImm x nn | addImm x nn | rnd x nn =>
    simp [encode, decodeWord, opOf_formatI, xOf_formatI, nnOf_formatI]
  | seReg x y | sneReg x y | drw x y n =>
    simp [encode, decodeWord, opOf_formatD, xOf_formatD, yOf_formatD, nOf_formatD]
  | ldReg x y | or x y | and x y | xor x y | addReg x y | sub x y | shr x y | subn x y | shl x y =>
    simp [encode, decodeWord, decodeAlu, opOf_formatD, xOf_formatD, yOf_formatD, nOf_formatD]
  | skp x | sknp x => simp [encode, decodeWord, decodeKey, opOf_formatI, xOf_formatI, nnOf_formatI]
  | ldVxDT x | ldVxK x | ldDTVx x | ldSTVx x | addI x | ldF x | ldB x | storeRegs x | loadRegs x =>
    simp [encode, decodeWord, decodeMisc, opOf_formatI, xOf_formatI, nnOf_formatI]

theorem decodeWord_eq_instr_iff {w : Word} {i : Instr} : decodeWord w = .instr i ↔ encode i = w :=
  ⟨encode_of_decodeWord, fun word => word ▸ decodeWord_encode i⟩

/-- The operands, the row and the word of every instruction fit (rules R92, R94). -/
theorem opcodeRowFit (i : Instr) : Laws.OpcodeRowFit.Statement i := by
  cases i with
  | cls => exact Laws.OpcodeRowFit.cls
  | ret => exact Laws.OpcodeRowFit.ret
  | jp nnn => exact Laws.OpcodeRowFit.jp nnn
  | call nnn => exact Laws.OpcodeRowFit.call nnn
  | seImm x nn => exact Laws.OpcodeRowFit.seImm x nn
  | sneImm x nn => exact Laws.OpcodeRowFit.sneImm x nn
  | seReg x y => exact Laws.OpcodeRowFit.seReg x y
  | ldImm x nn => exact Laws.OpcodeRowFit.ldImm x nn
  | addImm x nn => exact Laws.OpcodeRowFit.addImm x nn
  | ldReg x y => exact Laws.OpcodeRowFit.ldReg x y
  | or x y => exact Laws.OpcodeRowFit.or x y
  | and x y => exact Laws.OpcodeRowFit.and x y
  | xor x y => exact Laws.OpcodeRowFit.xor x y
  | addReg x y => exact Laws.OpcodeRowFit.addReg x y
  | sub x y => exact Laws.OpcodeRowFit.sub x y
  | shr x y => exact Laws.OpcodeRowFit.shr x y
  | subn x y => exact Laws.OpcodeRowFit.subn x y
  | shl x y => exact Laws.OpcodeRowFit.shl x y
  | sneReg x y => exact Laws.OpcodeRowFit.sneReg x y
  | ldI nnn => exact Laws.OpcodeRowFit.ldI nnn
  | jpV0 nnn => exact Laws.OpcodeRowFit.jpV0 nnn
  | rnd x nn => exact Laws.OpcodeRowFit.rnd x nn
  | drw x y n => exact Laws.OpcodeRowFit.drw x y n
  | skp x => exact Laws.OpcodeRowFit.skp x
  | sknp x => exact Laws.OpcodeRowFit.sknp x
  | ldVxDT x => exact Laws.OpcodeRowFit.ldVxDT x
  | ldVxK x => exact Laws.OpcodeRowFit.ldVxK x
  | ldDTVx x => exact Laws.OpcodeRowFit.ldDTVx x
  | ldSTVx x => exact Laws.OpcodeRowFit.ldSTVx x
  | addI x => exact Laws.OpcodeRowFit.addI x
  | ldF x => exact Laws.OpcodeRowFit.ldF x
  | ldB x => exact Laws.OpcodeRowFit.ldB x
  | storeRegs x => exact Laws.OpcodeRowFit.storeRegs x
  | loadRegs x => exact Laws.OpcodeRowFit.loadRegs x

/-- Settles O8: every instruction is well formed by its own law, and its row is found again from its fields. -/
theorem decodeOfEncodeIsTheInstruction : Obligations.DecodeOfEncodeIsTheInstruction := by
  intro i
  obtain ⟨wellFormed, -, -⟩ := opcodeRowFit i
  exact ⟨wellFormed, decodeWord_encode i⟩

/-- Settles O9: each arm of the decoder compares the fixed digits and takes the others as operands. -/
theorem encodeOfDecodeIsTheWord : Obligations.EncodeOfDecodeIsTheWord := fun _ _ => encode_of_decodeWord

/-! The rows of the opcode map (rule R94). -/

theorem opOf_mask (w : Word) : opOf (w &&& 0xF000#16) = opOf w := by
  rw [← formatA_fields w, formatA_mask, opOf_formatA, opOf_formatA]

theorem opOf_nOf_mask (w : Word) : opOf (w &&& 0xF00F#16) = opOf w ∧ nOf (w &&& 0xF00F#16) = nOf w := by
  rw [← formatD_fields w, formatD_mask]
  simp only [opOf_formatD, nOf_formatD, and_self]

theorem opOf_nnOf_mask (w : Word) : opOf (w &&& 0xF0FF#16) = opOf w ∧ nnOf (w &&& 0xF0FF#16) = nnOf w := by
  rw [← formatI_fields w, formatI_mask]
  simp only [opOf_formatI, nnOf_formatI, and_self]

theorem formatA_of_mask {w : Word} {op : Nibble} (row : w &&& 0xF000#16 = formatA op 0x000#12) :
    formatA op (nnnOf w) = w := by
  have digit : opOf w = op := by rw [← opOf_mask, row, opOf_formatA]
  rw [← digit, formatA_fields]

theorem formatI_of_familyMask {w : Word} {op : Nibble} (row : w &&& 0xF000#16 = formatA op 0x000#12) :
    formatI op (xOf w) (nnOf w) = w := by
  have digit : opOf w = op := by rw [← opOf_mask, row, opOf_formatA]
  rw [← digit, formatI_fields]

theorem formatD_of_familyMask {w : Word} {op : Nibble} (row : w &&& 0xF000#16 = formatA op 0x000#12) :
    formatD op (xOf w) (yOf w) (nOf w) = w := by
  have digit : opOf w = op := by rw [← opOf_mask, row, opOf_formatA]
  rw [← digit, formatD_fields]

theorem formatD_of_mask {w : Word} {op n : Nibble} (row : w &&& 0xF00F#16 = formatD op 0x0#4 0x0#4 n) :
    formatD op (xOf w) (yOf w) n = w := by
  obtain ⟨digit, code⟩ := opOf_nOf_mask w
  rw [row, opOf_formatD] at digit
  rw [row, nOf_formatD] at code
  rw [digit, code, formatD_fields]

theorem formatI_of_mask {w : Word} {op : Nibble} {nn : Byte} (row : w &&& 0xF0FF#16 = formatI op 0x0#4 nn) :
    formatI op (xOf w) nn = w := by
  obtain ⟨digit, code⟩ := opOf_nnOf_mask w
  rw [row, opOf_formatI] at digit
  rw [row, nnOf_formatI] at code
  rw [digit, code, formatI_fields]

/-- Settles O10: under each mask the matching word is the row's format with the fields of the word as operands, so it is
the word of the row's instruction. -/
theorem everyRowOfTheOpcodeMapDecodes : Obligations.EveryRowOfTheOpcodeMapDecodes := by
  intro w
  have row {i : Instr} (word : encode i = w) : decodeWord w = .instr i := decodeWord_eq_instr_iff.mpr word
  exact ⟨fun h => row h.symm, fun h => row h.symm,
    fun h => row (formatA_of_mask h), fun h => row (formatA_of_mask h),
    fun h => row (formatI_of_familyMask h), fun h => row (formatI_of_familyMask h),
    fun h => row (formatD_of_mask h),
    fun h => row (formatI_of_familyMask h), fun h => row (formatI_of_familyMask h),
    fun h => row (formatD_of_mask h), fun h => row (formatD_of_mask h), fun h => row (formatD_of_mask h),
    fun h => row (formatD_of_mask h), fun h => row (formatD_of_mask h), fun h => row (formatD_of_mask h),
    fun h => row (formatD_of_mask h), fun h => row (formatD_of_mask h), fun h => row (formatD_of_mask h),
    fun h => row (formatD_of_mask h),
    fun h => row (formatA_of_mask h), fun h => row (formatA_of_mask h),
    fun h => row (formatI_of_familyMask h), fun h => row (formatD_of_familyMask h),
    fun h => row (formatI_of_mask h), fun h => row (formatI_of_mask h),
    fun h => row (formatI_of_mask h), fun h => row (formatI_of_mask h), fun h => row (formatI_of_mask h),
    fun h => row (formatI_of_mask h), fun h => row (formatI_of_mask h), fun h => row (formatI_of_mask h),
    fun h => row (formatI_of_mask h), fun h => row (formatI_of_mask h), fun h => row (formatI_of_mask h)⟩

/-! The `Unknown` words (rule R95). -/

theorem decodeAlu_unknown_iff (x y n : Nibble) :
    decodeAlu x y n = .unknown ↔ n ∈ [0x8#4, 0x9#4, 0xA#4, 0xB#4, 0xC#4, 0xD#4, 0xF#4] := by
  have digit := n.isLt
  unfold decodeAlu
  split
  case h_10 =>
    simp only [true_iff, List.mem_cons, ← BitVec.toNat_inj, List.not_mem_nil, BitVec.toNat_ofNat, imp_false,
      or_false] at *
    omega
  all_goals
    next code => simp [eq_ofNat_of_toNat code]

theorem decodeKey_unknown_iff (x : Nibble) (nn : Byte) :
    decodeKey x nn = .unknown ↔ nn ∉ [0x9E#8, 0xA1#8] := by
  unfold decodeKey
  split
  case h_3 =>
    simp only [true_iff, List.mem_cons, ← BitVec.toNat_inj, List.not_mem_nil, BitVec.toNat_ofNat, imp_false,
      or_false] at *
    omega
  all_goals
    next code => simp [eq_ofNat_of_toNat code]

theorem decodeMisc_unknown_iff (x : Nibble) (nn : Byte) :
    decodeMisc x nn = .unknown ↔
      nn ∉ [0x07#8, 0x0A#8, 0x15#8, 0x18#8, 0x1E#8, 0x29#8, 0x33#8, 0x55#8, 0x65#8] := by
  unfold decodeMisc
  split
  case h_10 =>
    simp only [true_iff, List.mem_cons, ← BitVec.toNat_inj, List.not_mem_nil, BitVec.toNat_ofNat, imp_false,
      or_false] at *
    omega
  all_goals
    next code => simp [eq_ofNat_of_toNat code]

theorem decodeWord_unknown_iff_table (w : Word) :
    decodeWord w = .unknown ↔
      (opOf w = 0x0#4 ∧ w ≠ 0x00E0#16 ∧ w ≠ 0x00EE#16) ∨
      (opOf w = 0x5#4 ∧ nOf w ≠ 0x0#4) ∨
      (opOf w = 0x8#4 ∧ nOf w ∈ [0x8#4, 0x9#4, 0xA#4, 0xB#4, 0xC#4, 0xD#4, 0xF#4]) ∨
      (opOf w = 0x9#4 ∧ nOf w ≠ 0x0#4) ∨
      (opOf w = 0xE#4 ∧ nnOf w ∉ [0x9E#8, 0xA1#8]) ∨
      (opOf w = 0xF#4 ∧ nnOf w ∉ [0x07#8, 0x0A#8, 0x15#8, 0x18#8, 0x1E#8, 0x29#8, 0x33#8, 0x55#8, 0x65#8]) := by
  rw [← decodeAlu_unknown_iff (xOf w) (yOf w), ← decodeKey_unknown_iff (xOf w), ← decodeMisc_unknown_iff (xOf w)]
  have op {k : Nat} (digit : (opOf w).toNat = k) : opOf w = BitVec.ofNat 4 k := eq_ofNat_of_toNat digit
  unfold decodeWord
  split
  case h_1 digit =>
    rw [op digit]
    by_cases cls : w = 0x00E0#16
    · simp [cls]
    · by_cases ret : w = 0x00EE#16
      · simp [ret]
      · simp [cls, ret]
  case h_6 digit | h_10 digit =>
    by_cases n : nOf w = 0x0#4
    · simp [op digit, n]
    · simp [op digit, n]
  case h_16 =>
    have digit : (opOf w).toNat = 15 := by
      have := (opOf w).isLt
      simp only [imp_false] at *
      omega
    simp [op digit]
  all_goals
    next digit => simp [op digit]

/-- A word is `Unknown` exactly where no row of the opcode map covers it: a covering row decodes, and the instruction of
a word that decodes has a row that covers the word. -/
theorem decodeWord_unknown_iff_uncovered (w : Word) :
    decodeWord w = .unknown ↔ ∀ r ∈ opcodeMap, r.covers w = false := by
  constructor
  · intro unknown
    have rows := everyRowOfTheOpcodeMapDecodes w
    simp only [unknown, reduceCtorEq, imp_false] at rows
    have full : w &&& 0xFFFF#16 = w := BitVec.and_allOnes
    simpa [opcodeMap, OpcodeRow.covers, full] using rows
  · intro uncovered
    cases decoded : decodeWord w with
    | unknown => rfl
    | instr i =>
      obtain ⟨-, listed, covers⟩ := opcodeRowFit i
      rw [encode_of_decodeWord decoded, uncovered _ listed] at covers
      cases covers

/-- Settles O11: the table is the decoder's last arms, family by family, and the rows are those of O10. -/
theorem unknownWordsAreExactlyTheTable : Obligations.UnknownWordsAreExactlyTheTable := fun w =>
  ⟨decodeWord_unknown_iff_table w, decodeWord_unknown_iff_uncovered w⟩

/-- Settles O12: ten closed words, decoded by evaluation. -/
theorem writtenOutWordsDecode : Obligations.WrittenOutWordsDecode := by
  unfold Obligations.WrittenOutWordsDecode
  decide

end Sys2Proof
end

section
/-! PROOF. What every instruction leaves unchanged (rules R10, R20 to R33, R68). -/

namespace Sys2Proof.Machine

/-- A skip writes `PC` and nothing else (rule R138). -/
theorem State.skipIf_eq (s : State) (taken : Bool) :
    s.skipIf taken = { s with pc := if taken then s.pc + 2 else s.pc } := by
  cases taken <;> rfl

theorem State.getV_resultThenFlag_of_ne (s : State) {x k : Nibble} (result flag : Byte) (notX : k ≠ x)
    (notF : k ≠ vf) : (s.resultThenFlag x result flag).getV k = s.getV k := by
  rw [State.getV_resultThenFlag, if_neg notF, if_neg notX]

theorem State.getV_flagThenResult_of_ne (s : State) {x k : Nibble} (flag result : Byte) (notX : k ≠ x)
    (notF : k ≠ vf) : (s.flagThenResult x flag result).getV k = s.getV k := by
  rw [State.getV_flagThenResult, if_neg notX, if_neg notF]

/-! The stack instructions, by the test they make (rules R130, R132, R252, R253). -/

theorem exec_ret_of_empty {s : State} (empty : s.sp.val = 0) :
    exec .ret s = .next (s.raise .stackUnderflow (encode .ret)) := if_pos empty

theorem exec_ret_of_live {s : State} (live : s.sp.val ≠ 0) : exec .ret s = .next { s.drop with pc := s.top } :=
  if_neg live

theorem exec_call_of_room (nnn : Addr12) {s : State} (room : s.sp.val < 16) :
    exec (.call nnn) s = .next { s.push s.pc room with pc := nnnTarget nnn } := dif_pos room

theorem exec_call_of_full (nnn : Addr12) {s : State} (full : s.sp.val = 16) :
    exec (.call nnn) s = .next (s.raise .stackOverflow (encode (.call nnn))) :=
  dif_neg (by omega)

theorem exec_ret_cases {s t : State} (h : exec .ret s = .next t) :
    (s.sp.val = 0 ∧ t = s.raise .stackUnderflow (encode .ret)) ∨
    (s.sp.val ≠ 0 ∧ t = { s.drop with pc := s.top }) := by
  by_cases empty : s.sp.val = 0
  · rw [exec_ret_of_empty empty] at h
    cases h
    exact .inl ⟨empty, rfl⟩
  · rw [exec_ret_of_live empty] at h
    cases h
    exact .inr ⟨empty, rfl⟩

theorem exec_call_cases {nnn : Addr12} {s t : State} (h : exec (.call nnn) s = .next t) :
    (∃ room : s.sp.val < 16, t = { s.push s.pc room with pc := nnnTarget nnn }) ∨
    (s.sp.val = 16 ∧ t = s.raise .stackOverflow (encode (.call nnn))) := by
  by_cases room : s.sp.val < 16
  · rw [exec_call_of_room nnn room] at h
    cases h
    exact .inl ⟨room, rfl⟩
  · have full : s.sp.val = 16 := by omega
    rw [exec_call_of_full nnn full] at h
    cases h
    exact .inr ⟨full, rfl⟩

/-- The memory is the same data after every instruction but the two stores. -/
theorem exec_mem {i : Instr} {s t : State} (h : exec i s = .next t) (notLdB : ∀ x, i ≠ .ldB x)
    (notStore : ∀ x, i ≠ .storeRegs x) : t.mem = s.mem := by
  cases i with
  | ret => obtain ⟨-, rfl⟩ | ⟨-, rfl⟩ := exec_ret_cases h <;> rfl
  | call nnn => obtain ⟨room, rfl⟩ | ⟨-, rfl⟩ := exec_call_cases h <;> rfl
  | seImm x nn | sneImm x nn | seReg x y | sneReg x y | skp x | sknp x => cases h; exact State.skipIf_mem _ _
  | ldB x => exact absurd rfl (notLdB x)
  | storeRegs x => exact absurd rfl (notStore x)
  | _ => cases h; rfl

/-- Settles O46: the memory is then the same data, so it reads the same. -/
theorem onlyTheStoresChangeMemory : Obligations.OnlyTheStoresChangeMemory := by
  intro i s t h notLdB notStore a
  rw [exec_mem h notLdB notStore]

/-- Settles O47: by the shape of what each instruction writes: nothing, one register, a register and `VF`, or
`V[0]` to `V[X]`. -/
theorem registersChangeOnlyWhereTheTableSays : Obligations.RegistersChangeOnlyWhereTheTableSays := by
  intro i s t h k notWritten
  cases i with
  | ret => obtain ⟨-, rfl⟩ | ⟨-, rfl⟩ := exec_ret_cases h <;> rfl
  | call nnn => obtain ⟨room, rfl⟩ | ⟨-, rfl⟩ := exec_call_cases h <;> rfl
  | seImm x nn | sneImm x nn | seReg x y | sneReg x y | skp x | sknp x =>
    cases h
    rw [State.skipIf_eq]
    rfl
  | ldImm x nn | rnd x nn | addImm x nn | ldVxDT x | ldReg x y | or x y | and x y | xor x y =>
    cases h
    exact State.getV_setV_of_ne s _ notWritten
  | addReg x y | sub x y | subn x y =>
    cases h
    obtain ⟨notX, notF⟩ := not_or.mp notWritten
    exact State.getV_resultThenFlag_of_ne s _ _ notX notF
  | shr x y | shl x y =>
    cases h
    obtain ⟨notX, notF⟩ := not_or.mp notWritten
    exact State.getV_flagThenResult_of_ne s _ _ notX notF
  | drw x y n =>
    cases h
    exact State.getV_setV_of_ne _ _ notWritten
  | loadRegs x =>
    cases h
    have above : ¬k.toNat < x.toNat + 1 := fun below => notWritten (Nat.le_of_lt_succ below)
    exact (Registers.get_loadRounds s (x.toNat + 1) x.isLt s.v k).trans (if_neg above)
  | _ => cases h; rfl

/-- Settles O48: by the fields each instruction writes; the two stack instructions and the skips by their cases. -/
theorem systemStateChangesOnlyByItsInstructions : Obligations.SystemStateChangesOnlyByItsInstructions := by
  intro i s t h
  cases i with
  | ret => obtain ⟨-, rfl⟩ | ⟨-, rfl⟩ := exec_ret_cases h <;> simp
  | call nnn => obtain ⟨room, rfl⟩ | ⟨-, rfl⟩ := exec_call_cases h <;> simp
  | _ => cases h; simp [State.resultThenFlag, State.flagThenResult]

/-- The three kinds of instruction that change the run state, and that every other one leaves it and the fault record
(rules R30, R31, R203, R252, R253). -/
theorem exec_runState_cases {i : Instr} {s t : State} (h : exec i s = .next t) :
    (∃ x, i = .ldVxK x ∧ t = { s with pc := s.instrAddr, rs := .waitingForKey x }) ∨
    (i = .ret ∧ s.sp.val = 0 ∧ t = s.raise .stackUnderflow (encode i)) ∨
    ((∃ nnn, i = .call nnn) ∧ s.sp.val = 16 ∧ t = s.raise .stackOverflow (encode i)) ∨
    ((∀ x, i ≠ .ldVxK x) ∧ ¬(i = .ret ∧ s.sp.val = 0) ∧ ¬((∃ nnn, i = .call nnn) ∧ s.sp.val = 16) ∧
      t.rs = s.rs ∧ t.fc = s.fc) := by
  obtain ⟨-, -, -, -, stack, run, -⟩ := systemStateChangesOnlyByItsInstructions i s t h
  cases i with
  | ret =>
    obtain ⟨empty, rfl⟩ | ⟨live, rfl⟩ := exec_ret_cases h
    · exact .inr (.inl ⟨rfl, empty, rfl⟩)
    · exact .inr (.inr (.inr ⟨by simp, by simp [live], by simp, rfl, rfl⟩))
  | call nnn =>
    obtain ⟨room, rfl⟩ | ⟨full, rfl⟩ := exec_call_cases h
    · exact .inr (.inr (.inr ⟨by simp, by simp, fun ⟨_, full⟩ => by omega, rfl, rfl⟩))
    · exact .inr (.inr (.inl ⟨⟨nnn, rfl⟩, full, rfl⟩))
  | ldVxK x => cases h; exact .inl ⟨x, rfl, rfl⟩
  | _ =>
    obtain ⟨-, -, record⟩ := stack (by simp) (by simp)
    exact .inr (.inr (.inr ⟨by simp, by simp, by simp, run (by simp) (by simp) (by simp), record⟩))

/-- An update of the state that the stack instructions do not look at. -/
structure IgnoredByStack (f : State → State) : Prop where
  sp : ∀ s, (f s).sp = s.sp
  raise : ∀ s c w, (f s).raise c w = f (s.raise c w)
  pop : ∀ s, { (f s).drop with pc := (f s).top } = f { s.drop with pc := s.top }
  push : ∀ s nnn room room', { (f s).push (f s).pc room' with pc := nnn } = f { s.push s.pc room with pc := nnn }

theorem IgnoredByStack.exec_ret {f : State → State} (ignored : IgnoredByStack f) (s : State) :
    exec .ret (f s) = mapNext f (exec .ret s) := by
  have sp := ignored.sp s
  by_cases empty : s.sp.val = 0
  · rw [exec_ret_of_empty empty, exec_ret_of_empty (sp ▸ empty), ignored.raise, mapNext]
  · rw [exec_ret_of_live empty, exec_ret_of_live (sp ▸ empty), ignored.pop, mapNext]

theorem IgnoredByStack.exec_call {f : State → State} (ignored : IgnoredByStack f) (nnn : Addr12) (s : State) :
    exec (.call nnn) (f s) = mapNext f (exec (.call nnn) s) := by
  have sp := ignored.sp s
  by_cases room : s.sp.val < 16
  · rw [exec_call_of_room nnn room, exec_call_of_room nnn (sp ▸ room), ignored.push s _ room, mapNext]
  · have full : s.sp.val = 16 := by omega
    rw [exec_call_of_full nnn full, exec_call_of_full nnn (sp ▸ full), ignored.raise, mapNext]

/-- Settles O54: the result of an instruction is built from the state's own fields, which the replacement leaves; the
stack instructions and the skips by the test they make on them. -/
theorem onlyThreeInstructionsReadAnInput : Obligations.OnlyThreeInstructionsReadAnInput := by
  intro i s ts n notRnd notSkp notSknp
  have ignored : IgnoredByStack fun s => { s with turns := ts, turnCount := n } :=
    ⟨fun _ => rfl, fun _ _ _ => rfl, fun _ => rfl, fun _ _ _ _ => rfl⟩
  cases i with
  | rnd x nn => exact absurd rfl (notRnd x nn)
  | skp x => exact absurd rfl (notSkp x)
  | sknp x => exact absurd rfl (notSknp x)
  | ret => exact ignored.exec_ret s
  | call nnn => exact ignored.exec_call nnn s
  | seImm x nn | sneImm x nn | seReg x y | sneReg x y =>
    simp only [exec, execSeImm, execSneImm, execSeReg, execSneReg, State.skipIf_eq]
    rfl
  | _ => rfl

/-- Settles O55: as O54, with the timers in the place of the turns. -/
theorem timerTicksCommuteWithOtherInstructions : Obligations.TimerTicksCommuteWithOtherInstructions := by
  intro i s notRead notDT notST
  have ignored : IgnoredByStack timerTick := ⟨fun _ => rfl, fun _ _ _ => rfl, fun _ => rfl, fun _ _ _ _ => rfl⟩
  cases i with
  | ldVxDT x => exact absurd rfl (notRead x)
  | ldDTVx x => exact absurd rfl (notDT x)
  | ldSTVx x => exact absurd rfl (notST x)
  | ret => exact ignored.exec_ret s
  | call nnn => exact ignored.exec_call nnn s
  | seImm x nn | sneImm x nn | seReg x y | sneReg x y | skp x | sknp x =>
    simp only [exec, execSeImm, execSneImm, execSeReg, execSneReg, execSkp, execSknp, State.skipIf_eq]
    rfl
  | _ => rfl

end Sys2Proof.Machine
end

section
/-! PROOF. The step of each agent (rules R221 to R226), and what every step keeps: the invariant (rule R40) and the place
of a wait (rule R203). -/

namespace Sys2Proof.Machine

/-! Which step is taken. -/

theorem State.live_of_running {s : State} (run : s.rs = .running) : ∀ c, s.rs ≠ .halted c := by simp [run]

theorem State.live_of_waiting {s : State} {x : Nibble} (wait : s.rs = .waitingForKey x) : ∀ c, s.rs ≠ .halted c := by
  simp [wait]

theorem step_of_halted {s : State} {c : Cause} (halted : s.rs = .halted c) : step s = .fault (.halted c) := by
  unfold step takeTurn
  rw [halted]

theorem step_refresh {s : State} (live : ∀ c, s.rs ≠ .halted c) (refresh : s.turn.agent = .refresh) :
    step s = .next s.endTurn := by
  rw [step_of_not_halted live, refresh, agentStep, mapNext]

theorem step_cycle {s : State} (run : s.rs = .running) (core : s.turn.agent = .core) :
    step s = mapNext State.endTurn (cycle s) := by
  rw [step_of_not_halted (State.live_of_running run), core, agentStep, coreStep, run]

theorem step_instr {s : State} {i : Instr} (run : s.rs = .running) (core : s.turn.agent = .core)
    (word : decodeWord s.fetch = .instr i) : step s = mapNext State.endTurn (exec i s.advance) := by
  rw [step_cycle run core, cycle, word]

theorem step_unknown {s : State} (run : s.rs = .running) (core : s.turn.agent = .core)
    (word : decodeWord s.fetch = .unknown) : step s = .next (s.advance.raise .unknownOpcode s.fetch).endTurn := by
  rw [step_cycle run core, cycle, word, mapNext]

theorem step_keyPoll {s : State} {x : Nibble} (wait : s.rs = .waitingForKey x) (core : s.turn.agent = .core) :
    step s = .next (keyPoll x s).endTurn := by
  rw [step_of_not_halted (State.live_of_waiting wait), core, agentStep, coreStep, wait, mapNext]

theorem keyPoll_of_release {s : State} {k : Nibble} (x : Nibble) (release : s.turn.krel = some k) :
    keyPoll x s = { (s.setV x (k.setWidth 8)).advance with rs := .running } := by
  rw [keyPoll, release]

theorem keyPoll_of_none {s : State} (x : Nibble) (release : s.turn.krel = none) : keyPoll x s = s := by
  rw [keyPoll, release]

/-- A fault taken at an instruction leaves `A + 2` in `PC` and records `A` (rules R31, R258). -/
theorem State.raise_advance (s : State) (c : Cause) (w : Word) :
    s.advance.raise c w =
      { s with pc := s.pc + 2, rs := .halted c, fc := { cause := some c, word := w, addr := s.pc } } := by
  rw [State.raise, State.instrAddr_advance]
  rfl

/-! The invariant (rule R40). -/

/-- Off `Halted` the record has no cause, and an untouched record stays so while `RS` is off `Halted`. -/
theorem State.FaultRecorded.of_live {s t : State} (record : s.FaultRecorded) (live : ∀ c, s.rs ≠ .halted c)
    (liveAfter : ∀ c, t.rs ≠ .halted c) (fc : t.fc = s.fc) : t.FaultRecorded := by
  intro c
  rw [fc, ← record c]
  exact iff_of_false (liveAfter c) (live c)

/-- A step that touches none of the invariant's fields keeps it. -/
theorem State.Inv.of_eq {s t : State} (inv : s.Inv) (mem : t.mem = s.mem) (i : t.i = s.i) (rs : t.rs = s.rs)
    (fc : t.fc = s.fc) : t.Inv where
  memory := mem ▸ inv.memory
  index := i ▸ inv.index
  record := fun c => by rw [rs, fc]; exact inv.record c
  inBounds := fc ▸ inv.inBounds

theorem State.Inv.raise {s : State} (inv : s.Inv) {c : Cause} (w : Word) (cause : c ≠ .outOfBounds) :
    (s.raise c w).Inv where
  memory := inv.memory
  index := inv.index
  record := fun d => by simp
  inBounds := by simpa using cause

/-- Every instruction keeps the memory canonical: the two stores write byte by byte. -/
theorem exec_keeps_memory_wf {i : Instr} {s t : State} (h : exec i s = .next t) (wf : s.mem.wf) : t.mem.wf := by
  by_cases ldB : ∃ x, i = .ldB x
  · obtain ⟨x, rfl⟩ := ldB
    cases h
    exact Memory.wf_write (Memory.wf_write (Memory.wf_write wf _ _) _ _) _ _
  · by_cases store : ∃ x, i = .storeRegs x
    · obtain ⟨x, rfl⟩ := store
      cases h
      exact Memory.wf_storeRounds s _ wf
    · rw [exec_mem h (not_exists.mp ldB) (not_exists.mp store)]
      exact wf

/-- Every instruction keeps `I` below 4096 (rules R180 to R182): the three that write it store at most 12 bits. -/
theorem exec_keeps_index {i : Instr} {s t : State} (h : exec i s = .next t) (bound : s.i.toNat ≤ 0x0FFF) :
    t.i.toNat ≤ 0x0FFF := by
  cases i with
  | ldI nnn =>
    cases h
    rw [nnnTarget, toNat_setWidth_low nnn (by decide)]
    omega
  | addI x =>
    cases h
    exact Nat.le_of_lt_succ (busAddr_lt (s.i + (s.getV x).setWidth 16))
  | ldF x =>
    cases h
    rw [toNat_glyphAddr]
    omega
  | _ =>
    obtain ⟨index, -⟩ := systemStateChangesOnlyByItsInstructions _ s t h
    rw [index (by simp) (by simp) (by simp)]
    exact bound

theorem exec_keeps_inv {i : Instr} {s t : State} (h : exec i s = .next t) (run : s.rs = .running) (inv : s.Inv) :
    t.Inv := by
  have memory := exec_keeps_memory_wf h inv.memory
  have index := exec_keeps_index h inv.index
  have live := State.live_of_running run
  obtain ⟨x, -, rfl⟩ | ⟨-, -, rfl⟩ | ⟨-, -, rfl⟩ | ⟨-, -, -, rs, fc⟩ := exec_runState_cases h
  · exact ⟨memory, index, inv.record.of_live live (by simp) rfl, inv.inBounds⟩
  · exact inv.raise _ (by simp)
  · exact inv.raise _ (by simp)
  · exact ⟨memory, index, inv.record.of_live live (by rwa [rs]) fc, fc ▸ inv.inBounds⟩

theorem keyPoll_keeps_inv {s : State} {x : Nibble} (wait : s.rs = .waitingForKey x) (inv : s.Inv) :
    (keyPoll x s).Inv := by
  cases release : s.turn.krel with
  | none =>
    rw [keyPoll_of_none x release]
    exact inv
  | some k =>
    rw [keyPoll_of_release x release]
    exact ⟨inv.memory, inv.index, inv.record.of_live (State.live_of_waiting wait) (by simp) rfl, inv.inBounds⟩

theorem State.Inv.endTurn {s : State} (inv : s.Inv) : s.endTurn.Inv := inv.of_eq rfl rfl rfl rfl

theorem State.Inv.advance {s : State} (inv : s.Inv) : s.advance.Inv := inv.of_eq rfl rfl rfl rfl

/-- Settles O50: each of the five things a step can do keeps the invariant, and the end of the turn does. -/
theorem everyStepKeepsTheInvariant : Obligations.EveryStepKeepsTheInvariant := by
  intro s t inv h
  obtain ⟨i, u, run, -, -, exec, rfl⟩ | ⟨-, -, -, rfl⟩ | ⟨x, wait, -, rfl⟩ | ⟨-, -, rfl⟩ | ⟨-, -, rfl⟩ := step_cases h
  · exact (exec_keeps_inv exec run inv.advance).endTurn
  · exact (inv.advance.raise _ (by simp)).endTurn
  · exact (keyPoll_keeps_inv wait inv).endTurn
  · exact inv.of_eq rfl rfl rfl rfl
  · exact inv.endTurn

/-! The place of a wait (rule R203). -/

theorem State.WaitsAtInstr.of_not_waiting {s : State} (awake : ∀ x, s.rs ≠ .waitingForKey x) : s.WaitsAtInstr :=
  fun x wait => absurd wait (awake x)

theorem State.WaitsAtInstr.endTurn {s : State} (waits : s.WaitsAtInstr) : s.endTurn.WaitsAtInstr := waits

theorem State.WaitsAtInstr.timerTick {s : State} (waits : s.WaitsAtInstr) : (timerTick s).WaitsAtInstr := waits

/-- `FX0A` puts `PC` back, so the word fetched there is still its own; no other instruction begins a wait. -/
theorem exec_begins_wait_at_instr {i : Instr} {s u : State} (h : exec i s.advance = .next u) (run : s.rs = .running)
    (word : decodeWord s.fetch = .instr i) : u.WaitsAtInstr := by
  obtain ⟨x, rfl, rfl⟩ | ⟨-, -, rfl⟩ | ⟨-, -, rfl⟩ | ⟨-, -, -, rs, -⟩ := exec_runState_cases h
  · intro y wait
    obtain rfl : x = y := by simpa using wait
    rw [State.fetch, State.instrAddr_advance]
    exact word
  · exact State.WaitsAtInstr.of_not_waiting (by simp)
  · exact State.WaitsAtInstr.of_not_waiting (by simp)
  · exact State.WaitsAtInstr.of_not_waiting (by simp [rs, run])

theorem keyPoll_keeps_wait_at_instr {s : State} (x : Nibble) (waits : s.WaitsAtInstr) : (keyPoll x s).WaitsAtInstr := by
  cases release : s.turn.krel with
  | none =>
    rw [keyPoll_of_none x release]
    exact waits
  | some k =>
    rw [keyPoll_of_release x release]
    exact State.WaitsAtInstr.of_not_waiting (by simp)

/-- Settles O51: only `FX0A` begins a wait, at its own address, and while it lasts neither `PC` nor the memory
changes. -/
theorem everyStepKeepsTheWaitAtItsInstruction : Obligations.EveryStepKeepsTheWaitAtItsInstruction := by
  intro s t waits h
  obtain ⟨i, u, run, -, word, exec, rfl⟩ | ⟨-, -, -, rfl⟩ | ⟨x, -, -, rfl⟩ | ⟨-, -, rfl⟩ | ⟨-, -, rfl⟩ := step_cases h
  · exact (exec_begins_wait_at_instr exec run word).endTurn
  · exact State.WaitsAtInstr.of_not_waiting (by simp)
  · exact (keyPoll_keeps_wait_at_instr x waits).endTurn
  · exact waits.timerTick.endTurn
  · exact waits.endTurn

end Sys2Proof.Machine
end

section
/-! PROOF. One step of the machine and runs of it: the core's cycle (rules R221, R251), the key poll and the wait
(rules R203, R222), and the states that have a step (rules R223, R233). -/

namespace Sys2Proof.Machine

/-- Settles O13: `advance` is the pre-advance, and `endTurn` the end of the turn. -/
theorem stepRunsTheDecodedInstruction : Obligations.StepRunsTheDecodedInstruction := by
  intro s t i run core word h
  have ran : exec i s.advance = .next t := h
  rw [step_instr run core word, ran]
  rfl

/-- Settles O14: the fault is taken after the pre-advance. -/
theorem unknownWordHalts : Obligations.UnknownWordHalts := by
  intro s run core word
  rw [step_unknown run core word, State.raise_advance]
  rfl

/-- Settles O16: the refresh leaves the state, and the turn is over. -/
theorem refreshChangesNothing : Obligations.RefreshChangesNothing := fun _ live refresh => step_refresh live refresh

/-- Settles O17: the poll by its two cases, the release being one register write. -/
theorem keyPollEndsTheWaitOnARelease : Obligations.KeyPollEndsTheWaitOnARelease := by
  intro s x wait core
  have poll := step_keyPoll wait core
  refine ⟨fun k release => ?_, fun release => ?_⟩
  · rw [keyPoll_of_release x release] at poll
    exact ⟨_, poll, State.getV_setV_self s x _, fun y other => State.getV_setV_of_ne s _ other, rfl⟩
  · rwa [keyPoll_of_none x release] at poll

/-- Settles O20: the jump sets the `PC` it was fetched from. -/
theorem selfJumpParks : Obligations.SelfJumpParks := by
  intro s nnn run core word self
  have jump : exec (.jp nnn) s.advance = .next s := by
    rw [exec_jp, nnnTarget, ← self]
    rfl
  rw [step_instr run core word, jump]
  rfl

/-! A wait without a release (rule R222; D10). -/

/-- Without a release no agent's turn changes more than the timers. -/
theorem step_waiting_without_release {s : State} {x : Nibble} (wait : s.rs = .waitingForKey x)
    (noRelease : s.turn.agent = .core → s.turn.krel = none) :
    ∃ dt st, step s = .next { s with dt := dt, st := st, turns := s.turns.tail, turnCount := s.turnCount + 1 } := by
  have live := State.live_of_waiting wait
  cases agent : s.turn.agent with
  | core =>
    refine ⟨s.dt, s.st, ?_⟩
    rw [step_keyPoll wait agent, keyPoll_of_none x (noRelease agent)]
    rfl
  | timer => exact ⟨countDown s.dt, countDown s.st, step_timer live agent⟩
  | refresh => exact ⟨s.dt, s.st, step_refresh live agent⟩

/-- Settles O18: by induction on the turns, each of them without a release. -/
theorem keyWaitLastsUntilARelease : Obligations.KeyWaitLastsUntilARelease := by
  intro s x ts rest wait turns noRelease
  induction ts generalizing s with
  | nil =>
    obtain rfl : s.turns = rest := turns
    exact ⟨s.dt, s.st, rfl⟩
  | cons t ts ih =>
    have turn : s.turn = t := s.turn_of_cons t (ts ++ rest) turns
    obtain ⟨dt, st, first⟩ := step_waiting_without_release wait (turn ▸ noRelease t (by simp))
    have later : s.turns.tail = ts ++ rest := by rw [turns]; rfl
    obtain ⟨dt', st', run⟩ :=
      ih { s with dt := dt, st := st, turns := s.turns.tail, turnCount := s.turnCount + 1 } wait later
        fun u hu => noRelease u (by simp [hu])
    refine ⟨dt', st', (run_succ first ts.length).trans (run.trans ?_)⟩
    rw [List.length_cons, Nat.add_assoc, Nat.add_comm 1]

/-! The states that have a step (rule R223). -/

theorem agentStep_answers_next {s : State} (live : ∀ c, s.rs ≠ .halted c) (a : Config.Agent) :
    ∃ t, agentStep a s = .next t := by
  cases a with
  | timer => exact ⟨_, rfl⟩
  | refresh => exact ⟨_, rfl⟩
  | core =>
    rw [agentStep, coreStep]
    cases rs : s.rs with
    | halted c => exact absurd rs (live c)
    | waitingForKey x => exact ⟨_, rfl⟩
    | running =>
      dsimp only
      rw [cycle]
      cases decodeWord s.fetch with
      | unknown => exact ⟨_, rfl⟩
      | instr i => exact exec_answers_next i s.advance

theorem step_answers_next {s : State} (live : ∀ c, s.rs ≠ .halted c) : ∃ t, step s = .next t := by
  obtain ⟨t, answer⟩ := agentStep_answers_next live s.turn.agent
  rw [step_of_not_halted live, answer]
  exact ⟨_, rfl⟩

/-- Settles O19: a halted state answers its fault, and any other one a next state. -/
theorem onlyHaltedHasNoSuccessor : Obligations.OnlyHaltedHasNoSuccessor := by
  intro s
  by_cases halted : ∃ c, s.rs = .halted c
  · obtain ⟨c, rs⟩ := halted
    simp [step_of_halted rs, rs]
  · have live : ∀ c, s.rs ≠ .halted c := not_exists.mp halted
    obtain ⟨t, answer⟩ := step_answers_next live
    simp [answer, live]

/-- Settles O49: the reset memory lists no cell, `I` is 0, and the machine runs with no fault recorded. -/
theorem resetMeetsTheInvariants : Obligations.ResetMeetsTheInvariants := by
  have running : State.reset.rs = .running := rfl
  have noCause : State.reset.fc.cause = none := rfl
  exact ⟨⟨Memory.wf_reset, Nat.zero_le _, fun c => by simp [running, noCause], by simp [noCause]⟩,
    State.WaitsAtInstr.of_not_waiting (by simp [running])⟩

/-! The run state over a step (rule R30), and faults (rules R250, R258). -/

/-- The state that an instruction's fault leaves records its own word. -/
theorem raise_encode_endTurn {s : State} {i : Instr} (word : decodeWord s.fetch = .instr i) (c : Cause) :
    (s.advance.raise c (encode i)).endTurn =
      { s with
        pc := s.pc + 2
        rs := .halted c
        fc := { cause := some c, word := s.fetch, addr := s.pc }
        turns := s.turns.tail
        turnCount := s.turnCount + 1 } := by
  rw [encode_of_decodeWord word, State.raise_advance]
  rfl

/-- Settles O53: the halting steps are the unknown word, `RET` on an empty stack and `CALL` on a full one; every other
step leaves a state that is not halted. -/
theorem aFaultHasItsCauseAndChangesNothingElse : Obligations.AFaultHasItsCauseAndChangesNothingElse := by
  intro s t c h run halted
  obtain ⟨i, u, -, -, word, exec, rfl⟩ | ⟨-, -, word, rfl⟩ | ⟨x, wait, -, -⟩ | ⟨-, -, rfl⟩ | ⟨-, -, rfl⟩ :=
    step_cases h
  · obtain ⟨x, -, rfl⟩ | ⟨rfl, empty, rfl⟩ | ⟨⟨nnn, rfl⟩, full, rfl⟩ | ⟨-, -, -, rs, -⟩ := exec_runState_cases exec
    · simp at halted
    · obtain rfl : .stackUnderflow = c := by simpa using halted
      exact ⟨⟨word, empty⟩, raise_encode_endTurn word _⟩
    · obtain rfl : .stackOverflow = c := by simpa using halted
      exact ⟨⟨⟨nnn, word⟩, full⟩, raise_encode_endTurn word _⟩
    · simp [rs, run] at halted
  · obtain rfl : .unknownOpcode = c := by simpa using halted
    refine ⟨word, ?_⟩
    rw [State.raise_advance]
    rfl
  · simp [run] at wait
  · simp [run] at halted
  · simp [run] at halted

/-- A waiting machine becomes running exactly on a release at the core's turn (rule R222). -/
theorem step_waiting_runState {s t : State} {x : Nibble} (h : step s = .next t) (wait : s.rs = .waitingForKey x) :
    ((s.turn.agent = .core ∧ ∃ k, s.turn.krel = some k) → t.rs = .running) ∧
    (¬(s.turn.agent = .core ∧ ∃ k, s.turn.krel = some k) → t.rs = .waitingForKey x) := by
  obtain ⟨-, -, run, -⟩ | ⟨run, -⟩ | ⟨y, rs, core, rfl⟩ | ⟨-, timer, rfl⟩ | ⟨-, refresh, rfl⟩ := step_cases h
  · simp [run] at wait
  · simp [run] at wait
  · cases release : s.turn.krel with
    | none => simp [keyPoll_of_none y release, wait]
    | some k => simp [keyPoll_of_release y release, core]
  · simp [timer, wait]
  · simp [refresh, wait]

/-- A running machine begins a wait exactly at `FX0A`, and halts exactly at one of the three faults (rules R30, R203,
R250). -/
theorem step_running_runState {s t : State} (h : step s = .next t) (run : s.rs = .running) :
    (∀ x, t.rs = .waitingForKey x ↔ s.turn.agent = .core ∧ decodeWord s.fetch = .instr (.ldVxK x)) ∧
    (∀ c, t.rs = .halted c ↔ s.turn.agent = .core ∧
      ((c = .unknownOpcode ∧ decodeWord s.fetch = .unknown) ∨
       (c = .stackOverflow ∧ (∃ nnn, decodeWord s.fetch = .instr (.call nnn)) ∧ s.sp.val = 16) ∨
       (c = .stackUnderflow ∧ decodeWord s.fetch = .instr .ret ∧ s.sp.val = 0))) := by
  obtain ⟨i, u, -, core, word, exec, rfl⟩ | ⟨-, core, word, rfl⟩ | ⟨x, wait, -⟩ | ⟨-, timer, rfl⟩ |
    ⟨-, refresh, rfl⟩ := step_cases h
  · obtain ⟨x, rfl, rfl⟩ | ⟨rfl, empty, rfl⟩ | ⟨⟨nnn, rfl⟩, full, rfl⟩ | ⟨notWait, notEmpty, notFull, rs, -⟩ :=
      exec_runState_cases exec
    · simp [core, word]
    · rw [State.advance_sp] at empty
      simp [core, word, empty, eq_comm]
    · rw [State.advance_sp] at full
      simp [core, word, full, eq_comm]
    · refine ⟨fun x => by simp [rs, run, word, notWait], fun c => iff_of_false (by simp [rs, run]) ?_⟩
      rintro ⟨-, ⟨-, unknown⟩ | ⟨-, ⟨nnn, call⟩, full⟩ | ⟨-, ret, empty⟩⟩
      · simp [word] at unknown
      · exact notFull ⟨⟨nnn, by simpa [word] using call⟩, full⟩
      · exact notEmpty ⟨by simpa [word] using ret, empty⟩
  · simp [core, word, eq_comm]
  · simp [run] at wait
  · simp [timer, run]
  · simp [refresh, run]

/-- Settles O52: a waiting machine by its poll, a running one by the instruction of its core turn. -/
theorem runStateChangesInThreeWays : Obligations.RunStateChangesInThreeWays := by
  have atReset : State.reset.rs = .running := rfl
  refine ⟨atReset, fun s t h => ⟨?_, fun x wait => step_waiting_runState h wait, fun run => step_running_runState h run⟩⟩
  obtain ⟨succeeds, -, -⟩ := onlyHaltedHasNoSuccessor s
  exact succeeds.mp ⟨t, h⟩

/-! The edges of the tone (rule R230). -/

theorem State.tone_eq_true (s : State) : s.tone = true ↔ s.st ≠ 0x00#8 := bne_iff_ne

theorem State.tone_eq_false (s : State) : s.tone = false ↔ s.st = 0x00#8 := bne_eq_false_iff_eq

/-- The poll leaves the sound timer. -/
theorem keyPoll_st (x : Nibble) (s : State) : (keyPoll x s).st = s.st := by
  unfold keyPoll
  split <;> rfl

/-- Only `FX18` writes the sound timer. -/
theorem exec_st_cases {i : Instr} {s t : State} (h : exec i s = .next t) :
    (∃ x, i = .ldSTVx x ∧ t.st = s.getV x) ∨ t.st = s.st := by
  by_cases load : ∃ x, i = .ldSTVx x
  · obtain ⟨x, rfl⟩ := load
    cases h
    exact .inl ⟨x, rfl, rfl⟩
  · obtain ⟨-, -, soundTimer, -⟩ := systemStateChangesOnlyByItsInstructions i s t h
    exact .inr (soundTimer (not_exists.mp load))

/-- A timer at rest stays at rest. -/
theorem countDown_eq_zero_of_eq_zero {b : Byte} (rest : b = 0x00#8) : countDown b = 0x00#8 := by
  rw [rest]
  rfl

/-- A timer comes to rest only from 1. -/
theorem eq_one_of_countDown_eq_zero {b : Byte} (runs : b ≠ 0x00#8) (rest : countDown b = 0x00#8) : b = 0x01#8 := by
  have last := countDown_toNat b
  rw [rest] at last
  rw [← BitVec.toNat_inj.ne] at runs
  apply BitVec.eq_of_toNat_eq
  simp only [BitVec.toNat_ofNat] at *
  omega

/-- The sound timer over a step: `FX18` loads it, the tick counts it down, and nothing else changes it. -/
theorem step_st_cases {s t : State} (h : step s = .next t) :
    (s.rs = .running ∧ s.turn.agent = .core ∧ ∃ x, decodeWord s.fetch = .instr (.ldSTVx x) ∧ t.st = s.getV x) ∨
    (s.turn.agent = .timer ∧ t.st = countDown s.st) ∨ t.st = s.st := by
  obtain ⟨i, u, run, core, word, exec, rfl⟩ | ⟨-, -, -, rfl⟩ | ⟨x, -, -, rfl⟩ | ⟨-, timer, rfl⟩ | ⟨-, -, rfl⟩ :=
    step_cases h
  · obtain ⟨x, rfl, load⟩ | same := exec_st_cases exec
    · exact .inl ⟨run, core, x, word, load⟩
    · exact .inr (.inr same)
  · exact .inr (.inr rfl)
  · exact .inr (.inr (keyPoll_st x s))
  · exact .inr (.inl ⟨timer, rfl⟩)
  · exact .inr (.inr rfl)

/-- Settles O56: the tone is the level `ST != 0`, so an edge is a change of the sound timer from or to 0. -/
theorem toneEdgesAreFx18OrTheLastTick : Obligations.ToneEdgesAreFx18OrTheLastTick := by
  intro s t h
  simp only [State.tone_eq_true, State.tone_eq_false]
  obtain ⟨run, core, x, word, load⟩ | ⟨timer, tick⟩ | same := step_st_cases h
  · exact ⟨fun _ on => ⟨run, core, x, word, load ▸ on⟩, fun _ off => .inr ⟨run, core, x, word, load ▸ off⟩⟩
  · refine ⟨fun off on => absurd (countDown_eq_zero_of_eq_zero off) (tick ▸ on), fun on off => .inl ⟨timer, ?_⟩⟩
    exact eq_one_of_countDown_eq_zero on (tick ▸ off)
  · exact ⟨fun off on => absurd off (same ▸ on), fun on off => absurd (same ▸ off) on⟩

end Sys2Proof.Machine
end

section
/-! PROOF. The reset with and without a ROM image (rules R39, R71, R255, R290, R297), and the memory as data
(rules R32, R64). -/

namespace Sys2Proof.Machine

/-! Stored bytes and the fetch (rules R64, R65). -/

/-- A step of one address is another address of the bus, at the end of memory too. -/
theorem busAddr_succ_ne (a : Word) : busAddr (a + 1) ≠ busAddr a := by
  have one : (1 : Word).toNat = 1 := rfl
  rw [busAddr_eq_mod, busAddr_eq_mod, BitVec.toNat_add, one]
  omega

/-- Settles O6: the second write is to another address, so it leaves the first byte. -/
theorem storedBytesAreFetchedAsAWord : Obligations.StoredBytesAreFetchedAsAWord := by
  intro s hi lo
  rw [State.fetch_eq_append, Memory.read_write, Memory.read_write, Memory.read_write, if_pos rfl, if_pos rfl,
    if_neg (busAddr_succ_ne s.pc).symm]

/-! The canonical form (log 4). -/

/-- A listed cell of a canonical memory is what its address reads as. -/
theorem Memory.cell_of_listed {m : Memory} (sorted : m.Pairwise fun c d => c.1 < d.1) {c : Host.Cell} (listed : c ∈ m) :
    m.cell c.1 = c.2 := by
  induction m with
  | nil => cases listed
  | cons d m ih =>
    obtain ⟨least, sorted⟩ := List.pairwise_cons.mp sorted
    rw [Memory.cell_cons]
    rcases List.mem_cons.mp listed with rfl | listed
    · exact if_pos rfl
    · rw [if_neg (Nat.ne_of_lt (least c listed))]
      exact ih sorted listed

/-- The cells of a canonical memory are exactly the addresses below 4096 that do not read as the reset byte, with what
they read as. -/
theorem Memory.mem_iff_cell {m : Memory} (wf : m.wf) (c : Host.Cell) :
    c ∈ m ↔ c.1 < Config.memSize ∧ m.cell c.1 = c.2 ∧ c.2 ≠ Memory.resetByte c.1 := by
  obtain ⟨sorted, entries⟩ := wf
  constructor
  · intro listed
    obtain ⟨inside, differs⟩ := entries c listed
    exact ⟨inside, Memory.cell_of_listed sorted listed, differs⟩
  · rintro ⟨-, cell, differs⟩
    by_contra unlisted
    refine differs ?_
    rw [← cell]
    refine Memory.cell_of_unlisted fun d listed same => unlisted ?_
    have value := Memory.cell_of_listed sorted listed
    rw [same, cell] at value
    rwa [Prod.ext same value.symm] at listed

/-- Every address below 4096 is read by the bus at its own number. -/
theorem Memory.read_ofNat (m : Memory) {a : Nat} (inside : a < Config.memSize) : m.read (BitVec.ofNat 16 a) = m.cell a := by
  have inside : a < 4096 := inside
  have addr : busAddr (BitVec.ofNat 16 a) = a := by
    rw [busAddr_eq_mod, BitVec.toNat_ofNat]
    omega
  rw [Memory.read, addr]

/-- Settles O7: two memories that read alike list the same cells, and a list sorted by address is determined by its
cells. -/
theorem canonicalMemoriesThatReadAlikeAreEqual : Obligations.CanonicalMemoriesThatReadAlikeAreEqual := by
  intro m m' wf wf' alike
  have irrefl : Std.Irrefl fun c d : Host.Cell => c.1 < d.1 := ⟨fun c => Nat.lt_irrefl c.1⟩
  refine List.Pairwise.eq_of_mem_iff wf.1 wf'.1 fun c => ?_
  rw [Memory.mem_iff_cell wf, Memory.mem_iff_cell wf']
  refine and_congr_right fun inside => ?_
  rw [← Memory.read_ofNat m inside, alike, Memory.read_ofNat m' inside]

/-! Reset (rules R39, R290). -/

theorem Memory.resetByte_of_font {k : Nat} : Memory.resetByte k = Config.font.getD k 0x00#8 := if_pos (Nat.zero_le k)

/-- Past the 80 bytes of the font an unwritten address reads as zero (log 4). -/
theorem Memory.resetByte_of_ge {k : Nat} (past : 80 ≤ k) : Memory.resetByte k = 0x00#8 := by
  rw [Memory.resetByte_of_font, List.getD_eq_default]
  exact past

theorem State.getV_reset (x : Nibble) : State.reset.getV x = 0x00#8 := Vector.getElem_replicate _

theorem Framebuffer.get_reset (x : Fin 64) (y : Fin 32) : Framebuffer.get State.reset.fb x y = false :=
  Framebuffer.get_clear x y

/-- Settles O1: the reset state's own fields; its memory lists no cell. -/
theorem resetStateHoldsTheResetValues : Obligations.ResetStateHoldsTheResetValues :=
  ⟨rfl, rfl, rfl, rfl, fun _ _ => Memory.resetByte_of_font, fun _ => Memory.resetByte_of_ge, State.getV_reset,
    rfl, rfl, rfl, Framebuffer.get_reset, rfl⟩

/-- Settles O3: `ROM_MAX` is the bound that `hostReset` tests. -/
theorem romIsRefusedExactlyWhenTooLarge : Obligations.RomIsRefusedExactlyWhenTooLarge := by
  intro rom
  have bound : Config.romMax = 3584 := rfl
  rw [hostReset, bound]
  split
  · next long => simp [long]
  · next fits => simp [fits]

/-- A byte of the image at `0x200 + k`, and what stood before at every address outside it (rule R71). -/
theorem Memory.cell_loaded (rom : List Byte) (a : Nat) :
    (Memory.load [] 0x200 rom).cell a =
      if 0x200 ≤ a then (rom[a - 0x200]?).getD (Memory.resetByte a) else Memory.resetByte a :=
  Memory.cell_load rom [] 0x200 a

/-- Settles O2: the reset fields, the image over the reset memory, and the canonical form that the load keeps. -/
theorem hostResetMeetsTheLaunchPremises : Obligations.HostResetMeetsTheLaunchPremises := by
  intro rom fits
  have bound : Config.romMax = 3584 := rfl
  obtain ⟨resetInv, -⟩ := resetMeetsTheInvariants
  refine ⟨{ State.reset with mem := Memory.load [] 0x200 rom }, if_neg (by omega), ⟨by simp [State.reset], rfl⟩, rfl, rfl,
    rfl, ?font, ?rom, ?rest, ⟨State.getV_reset, rfl, rfl, rfl⟩, Framebuffer.get_reset, ?memory, resetInv.index,
    resetInv.record, resetInv.inBounds⟩
  case font =>
    intro k below
    rw [Memory.cell_loaded, if_neg (by omega), Memory.resetByte_of_font]
  case rom =>
    intro k b byte
    rw [Memory.cell_loaded, if_pos (by omega), Nat.add_sub_cancel_left, byte, Option.getD_some]
  case rest =>
    intro a pastFont outside
    rw [Memory.cell_loaded, Memory.resetByte_of_ge pastFont]
    split
    · next ge =>
      rw [List.getElem?_eq_none (by omega), Option.getD_none]
    · rfl
  case memory =>
    have size : Config.memSize = 4096 := rfl
    exact Memory.wf_load rom Memory.wf_reset 0x200 (by omega)

end Sys2Proof.Machine
end

section
/-! PROOF. The sprite (rules R121, R122) and the framebuffer port (rules R33, R227). -/

namespace Sys2Proof.Machine

/-- The state after a drawing: the framebuffer, and the collision in `VF` (rules R22, R121). -/
def State.drawn (s : State) (p : Framebuffer × Bool) : State := { s with fb := p.1 }.setV vf (collisionFlag p.2)

@[simp] theorem State.drawn_fb (s : State) (p : Framebuffer × Bool) : (s.drawn p).fb = p.1 := rfl

theorem State.getV_drawn_of_ne (s : State) (p : Framebuffer × Bool) {k : Nibble} (notF : k ≠ vf) :
    (s.drawn p).getV k = s.getV k := State.getV_setV_of_ne _ _ notF

theorem State.getV_drawn_vf (s : State) (p : Framebuffer × Bool) :
    (s.drawn p).getV vf = if p.2 then 0x01#8 else 0x00#8 := State.getV_setV_self _ _ _

theorem State.getV_drawn_vf_eq_one_iff (s : State) (p : Framebuffer × Bool) :
    (s.drawn p).getV vf = 0x01#8 ↔ p.2 = true := by
  rw [State.getV_drawn_vf]
  cases p.2 <;> decide

theorem State.getV_drawn_vf_eq_zero_iff (s : State) (p : Framebuffer × Bool) :
    (s.drawn p).getV vf = 0x00#8 ↔ ¬p.2 = true := by
  rw [State.getV_drawn_vf]
  cases p.2 <;> decide

/-- A sprite row is read through the 12-bit bus (rules R63, R186). -/
theorem Memory.read_dataAddr (m : Memory) (i : Word) (r : Nat) :
    m.read (dataAddr i r) = m.cell ((i.toNat + r) % 4096) := by
  rw [Memory.read, busAddr_dataAddr]

theorem spritePixels_iff (m : Memory) (i : Word) (x0 y0 n : Nat) (px : Fin 64) (py : Fin 32) :
    spritePixels m i x0 y0 n px py = true ↔
      x0 ≤ px.val ∧ px.val < x0 + 8 ∧ y0 ≤ py.val ∧ py.val < y0 + n ∧
        (m.cell ((i.toNat + (py.val - y0)) % 4096)).getLsbD (7 - (px.val - x0)) = true := by
  simp only [spritePixels, Memory.read_dataAddr, Bool.and_eq_true, decide_eq_true_eq]
  tauto

/-- The pixels that `DXYN` toggles in the state `s`. -/
def drwPixels (x y n : Nibble) (s : State) : Fin 64 → Fin 32 → Bool :=
  spritePixels s.mem s.i (startColumn (s.getV x)) (startRow (s.getV y)) n.toNat

/-- What `DXYN` answers (rule R121): `drwPixels` toggled, `VF` saying whether one of them was on, and nothing else. -/
theorem exec_drw (x y n : Nibble) (s : State) :
    ∃ p, Toggles (drwPixels x y n s) (s.fb, false) p ∧ exec (.drw x y n) s = .next (s.drawn p) :=
  ⟨_, drawSprite_toggles s.mem s.i _ _ n.toNat s.fb, rfl⟩

/-- A drawing collides exactly when it turns a pixel off. -/
theorem Toggles.hit_iff_erased {on : Fin 64 → Fin 32 → Bool} {fb : Framebuffer} {drawn : Framebuffer × Bool}
    (toggles : Toggles on (fb, false) drawn) :
    drawn.2 = true ↔ ∃ x y, fb.get x y = true ∧ drawn.1.get x y = false := by
  have erased (x y) : fb.get x y = true ∧ on x y = true ↔ fb.get x y = true ∧ drawn.1.get x y = false := by
    rw [toggles.pixel x y]
    exact and_congr_right fun was => by simp [was]
  simp [toggles.hit, erased]

/-- Settles O22: the toggled pixels are `drwPixels`, and the flag is the collision. -/
theorem drwTogglesTheSpritePixels : Obligations.DrwTogglesTheSpritePixels := by
  intro x y n s x0 y0 bit
  obtain ⟨p, toggles, answer⟩ := exec_drw x y n s
  have onBit (px py) : drwPixels x y n s px py = true ↔ bit px py := spritePixels_iff s.mem s.i x0 y0 n.toNat px py
  refine ⟨s.drawn p, answer, fun px py on => ?_, fun px py off => ?_, fun hit => ?_, fun miss => ?_,
    fun k notF => s.getV_drawn_of_ne p notF, rfl⟩
  · rw [State.drawn_fb, toggles.pixel, (onBit px py).mpr on, Bool.xor_true]
  · have off : drwPixels x y n s px py = false := Bool.eq_false_iff.mpr fun on => off ((onBit px py).mp on)
    rw [State.drawn_fb, toggles.pixel, off, Bool.xor_false]
  · exact (s.getV_drawn_vf_eq_one_iff p).mpr (toggles.hit_iff_erased.mpr hit)
  · exact (s.getV_drawn_vf_eq_zero_iff p).mpr (toggles.hit_iff_erased.not.mpr miss)

/-- Off `X = F` and `Y = F` a drawing leaves what the next drawing of the same operands takes its pixels from. -/
theorem drwPixels_drawn {x y : Nibble} (n : Nibble) (s : State) (p : Framebuffer × Bool) (notX : x ≠ vf)
    (notY : y ≠ vf) : drwPixels x y n (s.drawn p) = drwPixels x y n s := by
  rw [drwPixels, s.getV_drawn_of_ne p notX, s.getV_drawn_of_ne p notY]
  rfl

/-- Settles O23: the second drawing has the pixels of the first, and what is toggled twice is as before. -/
theorem drawingTwiceRestoresTheFramebuffer : Obligations.DrawingTwiceRestoresTheFramebuffer := by
  intro x y n s notX notY
  obtain ⟨p, first, answer⟩ := exec_drw x y n s
  obtain ⟨q, second, answer'⟩ := exec_drw x y n (s.drawn p)
  rw [drwPixels_drawn n s p notX notY, State.drawn_fb] at second
  have restored : q.1 = s.fb := Framebuffer.ext_get fun px py => by
    rw [second.pixel, first.pixel, Bool.xor_assoc, Bool.xor_self, Bool.xor_false]
  refine ⟨s.drawn p, (s.drawn p).drawn q, answer, answer', restored, ?_⟩
  refine ((s.drawn p).getV_drawn_vf_eq_one_iff q).trans ?_
  rw [second.hit_iff_erased, restored]
  simp only [State.drawn_fb, and_comm]

/-- Settles O57: the index `y * 64 + x` has `x` as its remainder and `y` as its quotient by 64. -/
theorem framebufferPortIsRowMajor : Obligations.FramebufferPortIsRowMajor := by
  intro s x y
  have column : (y.val * 64 + x.val) % 64 = x.val := by omega
  have row : (y.val * 64 + x.val) / 64 = y.val := by omega
  simp only [State.fbPort, Vector.getElem_ofFn, column, row]

end Sys2Proof.Machine
end

section
/-! PROOF. The control transfers through the stack and the skips (rules R130, R132 to R136, R138), and the stack faults
(rules R252, R253). -/

namespace Sys2Proof.Machine

theorem encode_call (nnn : Addr12) : encode (.call nnn) = 0x2000#16 ||| nnn.setWidth 16 := formatA_eq_or 0x2#4 nnn

/-- Settles O25: the stack is not empty, and its top entry is the one below `SP`. -/
theorem retPopsTheReturnAddress : Obligations.RetPopsTheReturnAddress := by
  have word : encode .ret = 0x00EE#16 := rfl
  refine ⟨word, fun s k room sp => ?_⟩
  have live : s.sp.val ≠ 0 := by omega
  rw [exec_ret_of_live live]
  simp [State.drop, State.top, sp]

/-- Settles O26: the stack has room at the entry `SP`. -/
theorem callPushesTheReturnAddress : Obligations.CallPushesTheReturnAddress := by
  refine fun nnn s => ⟨encode_call nnn, fun k room sp => ?_⟩
  subst sp
  exact exec_call_of_room nnn room

/-- Settles O27: each fault by its test, with the word of its instruction. -/
theorem stackFaultsHaltWithoutEffect : Obligations.StackFaultsHaltWithoutEffect := by
  refine fun s => ⟨fun empty => exec_ret_of_empty empty, fun nnn full => ?_⟩
  rw [exec_call_of_full nnn full, encode_call]
  rfl

theorem State.top_push (s : State) (a : Word) (room : s.sp.val < 16) : (s.push a room).top = a :=
  Vector.getElem_set_self room

/-- Settles O28: the pushed entry is the top one after the call, and it lies above the entries that were live. -/
theorem callThenRetRestoresThePc : Obligations.CallThenRetRestoresThePc := by
  intro nnn s p room
  have live : (s.push s.pc room).sp.val ≠ 0 := Nat.succ_ne_zero s.sp.val
  have back : exec .ret { s.push s.pc room with pc := p } = .next { (s.push s.pc room).drop with pc := s.pc } :=
    (exec_ret_of_live live).trans
      (congrArg (fun a => Host.Outcome.next { (s.push s.pc room).drop with pc := a }) (s.top_push s.pc room))
  exact ⟨_, _, exec_call_of_room nnn room, back, rfl, rfl,
    fun k below => Vector.getElem_set_ne room (by omega) (by omega), rfl⟩

/-! The skips. -/

theorem encode_seImm (x : Nibble) (nn : Byte) :
    encode (.seImm x nn) = 0x3000#16 ||| x.setWidth 16 <<< 8 ||| nn.setWidth 16 := formatI_eq_or 0x3#4 x nn

theorem encode_sneImm (x : Nibble) (nn : Byte) :
    encode (.sneImm x nn) = 0x4000#16 ||| x.setWidth 16 <<< 8 ||| nn.setWidth 16 := formatI_eq_or 0x4#4 x nn

theorem encode_seReg (x y : Nibble) :
    encode (.seReg x y) = 0x5000#16 ||| x.setWidth 16 <<< 8 ||| y.setWidth 16 <<< 4 := formatD_zero_eq_or 0x5#4 x y

theorem encode_sneReg (x y : Nibble) :
    encode (.sneReg x y) = 0x9000#16 ||| x.setWidth 16 <<< 8 ||| y.setWidth 16 <<< 4 := formatD_zero_eq_or 0x9#4 x y

/-- A skip under the test `a = b`. -/
theorem State.skipIf_beq {n : Nat} (s : State) (a b : BitVec n) :
    s.skipIf (a == b) = { s with pc := if a = b then s.pc + 2 else s.pc } := by
  rw [State.skipIf_eq]
  simp only [beq_iff_eq]

/-- A skip under the test `a ≠ b`. -/
theorem State.skipIf_bne {n : Nat} (s : State) (a b : BitVec n) :
    s.skipIf (a != b) = { s with pc := if a = b then s.pc else s.pc + 2 } := by
  rw [State.skipIf_eq]
  simp only [bne_iff_ne, ite_not]

/-- Settles O29: each skip is `skipIf` under its comparison. -/
theorem immediateSkipsCompareVxWithNn : Obligations.ImmediateSkipsCompareVxWithNn := fun x nn s =>
  ⟨encode_seImm x nn, encode_sneImm x nn, congrArg Host.Outcome.next (s.skipIf_beq _ nn),
    congrArg Host.Outcome.next (s.skipIf_bne _ nn)⟩

/-- Settles O30: each skip is `skipIf` under its comparison. -/
theorem registerSkipsCompareVxWithVy : Obligations.RegisterSkipsCompareVxWithVy := fun x y s =>
  ⟨encode_seReg x y, encode_sneReg x y, congrArg Host.Outcome.next (s.skipIf_beq _ _),
    congrArg Host.Outcome.next (s.skipIf_bne _ _)⟩

/-- A skip under the negation of a test. -/
theorem State.skipIf_not (s : State) (taken : Bool) :
    s.skipIf (!taken) = { s with pc := if taken then s.pc else s.pc + 2 } := by
  cases taken <;> rfl

theorem keyDown_eq (keys : BitVec 16) (b : Byte) : keyDown keys b = keys.getLsbD (b.toNat % 16) := by
  rw [keyDown, toNat_lowNibble]

/-- Settles O43: each skip is `skipIf` under the level of the key numbered by the low nibble. -/
theorem keySkipsTestTheKeyLevel : Obligations.KeySkipsTestTheKeyLevel := by
  intro x s
  rw [← keyDown_eq]
  exact ⟨congrArg Host.Outcome.next (s.skipIf_eq _), congrArg Host.Outcome.next (s.skipIf_not _)⟩

end Sys2Proof.Machine
end

section
/-! PROOF. Arithmetic, logic, shifts and the random byte (rules R153 to R164). -/

namespace Sys2Proof.Machine

/-- Settles O34: each operation writes one register, and the bits of the result are by bits. -/
theorem logicOperationsAreBitwise : Obligations.LogicOperationsAreBitwise := fun x _ s =>
  ⟨⟨_, _, rfl, onlyRegister_setV s x _, fun _ => BitVec.getLsbD_or⟩,
    ⟨_, _, rfl, onlyRegister_setV s x _, fun _ => BitVec.getLsbD_and⟩,
    ⟨_, _, rfl, onlyRegister_setV s x _, fun _ => BitVec.getLsbD_xor⟩⟩

/-- Settles O37: the write of one register, of a byte and-ed with the mask. -/
theorem rndMasksTheRandomByte : Obligations.RndMasksTheRandomByte := by
  intro x nn s
  refine ⟨_, _, rfl, onlyRegister_setV s x _, fun _ => BitVec.getLsbD_and, ?_⟩
  rw [BitVec.toNat_and]
  exact Nat.and_le_right

/-! The two write orders (rule R162), each with the frame of one register and the flag. -/

@[simp] theorem State.getV_resultThenFlag_vf (s : State) (x : Nibble) (result flag : Byte) :
    (s.resultThenFlag x result flag).getV vf = flag := by
  rw [State.getV_resultThenFlag, if_pos rfl]

theorem State.getV_resultThenFlag_self (s : State) {x : Nibble} (result flag : Byte) (notF : x ≠ vf) :
    (s.resultThenFlag x result flag).getV x = result := by
  rw [State.getV_resultThenFlag, if_neg notF, if_pos rfl]

@[simp] theorem State.getV_flagThenResult_self (s : State) (x : Nibble) (flag result : Byte) :
    (s.flagThenResult x flag result).getV x = result := by
  rw [State.getV_flagThenResult, if_pos rfl]

theorem State.getV_flagThenResult_vf (s : State) {x : Nibble} (flag result : Byte) (notF : x ≠ vf) :
    (s.flagThenResult x flag result).getV vf = flag := by
  rw [State.getV_flagThenResult, if_neg (Ne.symm notF), if_pos rfl]

theorem carryOut_eq (a b : Byte) : carryOut a b = if 255 < a.toNat + b.toNat then 0x01#8 else 0x00#8 := by
  simp only [carryOut, flagByte, decide_eq_true_eq]

theorem noBorrow_eq (a b : Byte) : noBorrow a b = if b.toNat ≤ a.toNat then 0x01#8 else 0x00#8 := by
  simp only [noBorrow, flagByte, decide_eq_true_eq]

/-- A difference of bytes is modulo 256 (rule R163). -/
theorem toNat_sub_byte (a b : Byte) :
    (a - b).toNat = if b.toNat ≤ a.toNat then a.toNat - b.toNat else a.toNat + 256 - b.toNat := by
  have ha := a.isLt
  have hb := b.isLt
  rw [BitVec.toNat_sub]
  split <;> omega

/-- Settles O35: result, then flag, of operands read before both writes. -/
theorem addAndSubtractSetVfLast : Obligations.AddAndSubtractSetVfLast := by
  intro x y s a b
  have others {result flag : Byte} (k : Nibble) (notX : k ≠ x) (notF : k ≠ 0xF#4) :
      (s.resultThenFlag x result flag).getV k = s.getV k := s.getV_resultThenFlag_of_ne _ _ notX notF
  have result {r flag : Byte} (notF : x ≠ 0xF#4) : (s.resultThenFlag x r flag).getV x = r :=
    s.getV_resultThenFlag_self _ _ notF
  refine ⟨⟨_, rfl, ?_, fun notF => ?_, others, rfl⟩, ⟨_, rfl, ?_, fun notF => ?_, others, rfl⟩,
    ⟨_, rfl, ?_, fun notF => ?_, others, rfl⟩⟩
  · exact (s.getV_resultThenFlag_vf _ _ _).trans (carryOut_eq _ _)
  · rw [result notF, BitVec.toNat_add]
  · exact (s.getV_resultThenFlag_vf _ _ _).trans (noBorrow_eq _ _)
  · rw [result notF, toNat_sub_byte]
  · exact (s.getV_resultThenFlag_vf _ _ _).trans (noBorrow_eq _ _)
  · rw [result notF, toNat_sub_byte]

theorem toNat_flagByte (b : Bool) : (flagByte b).toNat = b.toNat := by cases b <;> rfl

/-- The bit shifted out at the right is the remainder by 2. -/
theorem toNat_lowBitOut (b : Byte) : (lowBitOut b).toNat = b.toNat % 2 := by
  rw [lowBitOut, toNat_flagByte, BitVec.getLsbD, Nat.toNat_testBit, Nat.pow_zero, Nat.div_one]

/-- The bit shifted out at the left is the quotient by 128. -/
theorem toNat_highBitOut (b : Byte) : (highBitOut b).toNat = b.toNat / 128 := by
  have := b.isLt
  rw [highBitOut, toNat_flagByte, BitVec.getLsbD, Nat.toNat_testBit]
  omega

/-- Settles O36: flag, then result, of the operand read before both writes. -/
theorem shiftsReadVyAndSetVfFirst : Obligations.ShiftsReadVyAndSetVfFirst := by
  intro x y s b
  have others {result flag : Byte} (k : Nibble) (notX : k ≠ x) (notF : k ≠ 0xF#4) :
      (s.flagThenResult x flag result).getV k = s.getV k := s.getV_flagThenResult_of_ne _ _ notX notF
  have flag {f result : Byte} (notF : x ≠ 0xF#4) : (s.flagThenResult x f result).getV 0xF#4 = f :=
    s.getV_flagThenResult_vf _ _ notF
  refine ⟨⟨_, rfl, ?_, fun notF => ?_, others, rfl⟩, ⟨_, rfl, ?_, fun notF => ?_, others, rfl⟩⟩
  · rw [State.getV_flagThenResult_self, BitVec.toNat_ushiftRight, Nat.shiftRight_one]
  · rw [flag notF, toNat_lowBitOut]
  · rw [State.getV_flagThenResult_self, BitVec.toNat_shiftLeft, Nat.shiftLeft_eq]
    omega
  · rw [flag notF, toNat_highBitOut]

end Sys2Proof.Machine
end

section
/-! PROOF. The index register and the memory transfers (rules R181 to R186), and the timer and key moves (rules R202 to
R205). -/

namespace Sys2Proof.Machine

/-- Settles O39: the sum under the 12-bit mask; it cannot wrap at 16 bits without wrapping at 12. -/
theorem addToIndexIsMaskedWithoutAFlag : Obligations.AddToIndexIsMaskedWithoutAFlag := by
  refine fun x s => ⟨_, rfl, ?_, rfl⟩
  refine (busAddr_eq_mod _).trans ?_
  rw [BitVec.toNat_add, toNat_setWidth_low _ (by decide)]
  omega

/-! The decimal digits (rule R183). -/

theorem toNat_hundreds (b : Byte) : (hundreds b).toNat = b.toNat / 100 := BitVec.toNat_udiv

theorem toNat_tens (b : Byte) : (tens b).toNat = b.toNat / 10 % 10 := by
  rw [tens, BitVec.toNat_umod, BitVec.toNat_udiv]
  rfl

theorem toNat_units (b : Byte) : (units b).toNat = b.toNat % 10 := BitVec.toNat_umod

/-- Settles O40: three writes at three addresses of the bus. -/
theorem decimalDigitsAreStoredAtI : Obligations.DecimalDigitsAreStoredAtI := by
  intro x s
  have apart {r q : Nat} (hr : r < 3) (hq : q < 3) (ne : r ≠ q) :
      busAddr (dataAddr s.i r) ≠ busAddr (dataAddr s.i q) :=
    (busAddr_dataAddr_inj s.i (by omega) (by omega)).not.mpr ne
  refine ⟨_, rfl, ?_, ?_, ?_, fun a other => ?_, rfl⟩
  · rw [Memory.read_write, if_neg (apart (by decide) (by decide) (by decide)), Memory.read_write,
      if_neg (apart (by decide) (by decide) (by decide)), Memory.read_write, if_pos rfl, toNat_hundreds]
  · rw [Memory.read_write, if_neg (apart (by decide) (by decide) (by decide)), Memory.read_write, if_pos rfl, toNat_tens]
  · rw [Memory.read_write, if_pos rfl, toNat_units]
  · rw [Memory.read_write, if_neg (other 2 (by decide)), Memory.read_write, if_neg (other 1 (by decide)),
      Memory.read_write, if_neg (other 0 (by decide))]

/-- Settles O41: the store rounds at distinct addresses of the bus. -/
theorem storeRegistersWritesV0ToVx : Obligations.StoreRegistersWritesV0ToVx := by
  intro x s
  refine ⟨_, rfl, fun k upToX => ?_, fun a other => ?_, rfl⟩
  · refine (Memory.read_storeRounds s (x.toNat + 1) x.isLt s.mem (Nat.lt_succ_of_le upToX)).trans ?_
    rw [BitVec.ofNat_toNat, BitVec.setWidth_eq]
  · refine Memory.read_storeRounds_other s _ s.mem a fun r round => other r ?_
    exact Nat.le_of_lt_succ (List.mem_range.mp round)

/-- Settles O42: the load rounds, each reading through the bus. -/
theorem loadRegistersReadsV0ToVx : Obligations.LoadRegistersReadsV0ToVx := by
  intro x s
  have loaded (k : Nibble) := Registers.get_loadRounds s (x.toNat + 1) x.isLt s.v k
  refine ⟨_, rfl, fun k upToX => ?_, fun k above => ?_, rfl⟩
  · refine ((loaded k).trans (if_pos (Nat.lt_succ_of_le upToX))).trans ?_
    rw [Memory.read, busAddr_dataAddr]
  · exact (loaded k).trans (if_neg (by omega))

/-! The timers and the wait. -/

theorem encode_ldVxDT (x : Nibble) : encode (.ldVxDT x) = 0xF007#16 ||| x.setWidth 16 <<< 8 :=
  formatI_eq_code_or 0xF#4 x 0x07#8

theorem encode_ldDTVx (x : Nibble) : encode (.ldDTVx x) = 0xF015#16 ||| x.setWidth 16 <<< 8 :=
  formatI_eq_code_or 0xF#4 x 0x15#8

theorem encode_ldSTVx (x : Nibble) : encode (.ldSTVx x) = 0xF018#16 ||| x.setWidth 16 <<< 8 :=
  formatI_eq_code_or 0xF#4 x 0x18#8

/-- Settles O44: one register write, and one write of each timer, whose level is the tone. -/
theorem timerMovesCopyWholeBytes : Obligations.TimerMovesCopyWholeBytes := by
  intro x s
  have level : State.tone { s with st := s.getV x } = decide (s.getV x ≠ 0x00#8) := by
    rw [Bool.eq_iff_iff, State.tone_eq_true, decide_eq_true_eq]
  exact ⟨encode_ldVxDT x, encode_ldDTVx x, encode_ldSTVx x, ⟨_, rfl, onlyRegister_setV s x s.dt⟩, rfl, rfl, level⟩

/-- Settles O45: `instrAddr` is `PC - 2`. -/
theorem waitForKeyPutsThePcBack : Obligations.WaitForKeyPutsThePcBack := fun _ _ => rfl

end Sys2Proof.Machine
end
